-- ==== Sys2Proof/Word.lean ====
section
/-! DEFINITION. The word types of the machine: bytes, 16-bit words, 12-bit addresses, register numbers and row counts
(spec 00_scope.md R8, R9; 10_state.md R21). -/

namespace Sys2Proof

/-- One 8-bit register or memory byte (10_state.md R21, R35). -/
abbrev Byte := BitVec 8

/-- One 16-bit word: an instruction word, `I`, `pc`, a stack entry, the key vector (R25, R26, R29, R39). -/
abbrev Word := BitVec 16

/-- A 12-bit address field `NNN` (30_encoding.md R81). -/
abbrev Addr12 := BitVec 12

/-- A general register number, `V0` to `VF` (10_state.md R21: every value of a register field names a register). -/
abbrev Reg := Fin 16

/-- The row count `N` of DXYN, 0 to 15 (30_encoding.md R83). -/
abbrev Rows := Fin 16

/-- `VF`, the register that doubles as the flag (10_state.md R24). -/
abbrev VF : Reg := 15

end Sys2Proof
end

