-- ==== Sys2Proof/Syntax.lean ====
section
/-! DEFINITION. The 35 instructions, one constructor per row of spec/opcode_table.json, in the order of 30_encoding.md
R85. Operands are the fields of the word (R81, R82); the fields an instruction ignores (NNN of SYS, Y of the shifts)
are kept, so that no bit of a word is dropped (log 35). -/

namespace Sys2Proof

inductive Instr where
  /-- 00E0 `CLS` (44_display.md R160). -/
  | cls
  /-- 00EE `RET` (40_control_transfer.md R111). -/
  | ret
  /-- 0NNN `SYS nnn` (R110). -/
  | sys (nnn : Addr12)
  /-- 1NNN `JP nnn` (R112). -/
  | jp (nnn : Addr12)
  /-- 2NNN `CALL nnn` (R113). -/
  | call (nnn : Addr12)
  /-- 3XKK `SE Vx, kk` (41_skips.md R120). -/
  | seImm (x : Reg) (kk : Byte)
  /-- 4XKK `SNE Vx, kk` (R121). -/
  | sneImm (x : Reg) (kk : Byte)
  /-- 5XY0 `SE Vx, Vy` (R122). -/
  | seReg (x y : Reg)
  /-- 6XKK `LD Vx, kk` (42_load_immediate.md R130). -/
  | ldImm (x : Reg) (kk : Byte)
  /-- 7XKK `ADD Vx, kk` (R131). -/
  | addImm (x : Reg) (kk : Byte)
  /-- 8XY0 `LD Vx, Vy` (43_alu.md R141). -/
  | ldReg (x y : Reg)
  /-- 8XY1 `OR Vx, Vy` (R142). -/
  | orReg (x y : Reg)
  /-- 8XY2 `AND Vx, Vy` (R143). -/
  | andReg (x y : Reg)
  /-- 8XY3 `XOR Vx, Vy` (R144). -/
  | xorReg (x y : Reg)
  /-- 8XY4 `ADD Vx, Vy` (R145). -/
  | addReg (x y : Reg)
  /-- 8XY5 `SUB Vx, Vy` (R146). -/
  | subReg (x y : Reg)
  /-- 8XY6 `SHR Vx`; Y is ignored (R147). -/
  | shr (x y : Reg)
  /-- 8XY7 `SUBN Vx, Vy` (R148). -/
  | subn (x y : Reg)
  /-- 8XYE `SHL Vx`; Y is ignored (R149). -/
  | shl (x y : Reg)
  /-- 9XY0 `SNE Vx, Vy` (41_skips.md R123). -/
  | sneReg (x y : Reg)
  /-- ANNN `LD I, nnn` (42_load_immediate.md R132). -/
  | ldI (nnn : Addr12)
  /-- BNNN `JP V0, nnn` (40_control_transfer.md R114). -/
  | jpV0 (nnn : Addr12)
  /-- CXKK `RND Vx, kk` (42_load_immediate.md R133). -/
  | rnd (x : Reg) (kk : Byte)
  /-- DXYN `DRW Vx, Vy, n` (44_display.md R161). -/
  | drw (x y : Reg) (n : Rows)
  /-- EX9E `SKP Vx` (45_keypad.md R170). -/
  | skp (x : Reg)
  /-- EXA1 `SKNP Vx` (R171). -/
  | sknp (x : Reg)
  /-- FX07 `LD Vx, DT` (46_timer_index_memory.md R180). -/
  | ldVxDT (x : Reg)
  /-- FX0A `LD Vx, K` (45_keypad.md R172). -/
  | ldVxK (x : Reg)
  /-- FX15 `LD DT, Vx` (46_timer_index_memory.md R181). -/
  | ldDTVx (x : Reg)
  /-- FX18 `LD ST, Vx` (R182). -/
  | ldSTVx (x : Reg)
  /-- FX1E `ADD I, Vx` (R183). -/
  | addIVx (x : Reg)
  /-- FX29 `LD F, Vx` (R184). -/
  | ldFVx (x : Reg)
  /-- FX33 `LD B, Vx` (R185). -/
  | ldBVx (x : Reg)
  /-- FX55 `LD [I], Vx` (R186). -/
  | ldMemVx (x : Reg)
  /-- FX65 `LD Vx, [I]` (R187). -/
  | ldVxMem (x : Reg)
  deriving DecidableEq, Repr

end Sys2Proof
end

