-- ==== Sys2Proof/Decode.lean ====
section
/-! DEFINITION. The decoder (30_encoding.md R80 to R89), total on any bytes and rejecting by name, and after it the encoder
written from the same tables (R82, R85). Sub-opcode values and the strict low nibble of 5XY0 and 9XY0 are the spec's
decision D6 (log 9). -/

namespace Sys2Proof

/-- Why the decoder refuses. -/
inductive Reject where
  /-- The word matches no row of the opcode map (R87): the step faults with UnrecognizedOpcode. Safe. -/
  | unrecognizedOpcode
  /-- Fewer than two bytes were given; never happens in a step, whose fetch gives two (R80). Safe. -/
  | fewerThanTwoBytes
  deriving DecidableEq, Repr

/-! ## Fields (R81) -/

/-- `X = w[11:8]`. -/
def fieldX (w : Word) : Reg := (w.extractLsb' 8 4).toFin

/-- `Y = w[7:4]`. -/
def fieldY (w : Word) : Reg := (w.extractLsb' 4 4).toFin

/-- `N = w[3:0]`. -/
def fieldN (w : Word) : Rows := (w.extractLsb' 0 4).toFin

/-- `KK = w[7:0]`. -/
def fieldKK (w : Word) : Byte := w.extractLsb' 0 8

/-- `NNN = w[11:0]`. -/
def fieldNNN (w : Word) : Addr12 := w.extractLsb' 0 12

/-! ## The opcode map (R85) -/

/-- One row of the opcode map: a word selects it when `(w & mask) = bits`. -/
structure OpcodeRow where
  mask  : Word
  bits  : Word
  build : Word → Instr

/-- The row's test of a word (R85). -/
def OpcodeRow.selects (r : OpcodeRow) (w : Word) : Bool := (w &&& r.mask) == r.bits

/-- Rows 1 to 5: families 0, 1 and 2; 00E0 and 00EE stand before 0NNN, which they overlap (R85). -/
def rowsControl : List OpcodeRow :=
  [⟨0xFFFF, 0x00E0, fun _ => .cls⟩,
   ⟨0xFFFF, 0x00EE, fun _ => .ret⟩,
   ⟨0xF000, 0x0000, fun w => .sys (fieldNNN w)⟩,
   ⟨0xF000, 0x1000, fun w => .jp (fieldNNN w)⟩,
   ⟨0xF000, 0x2000, fun w => .call (fieldNNN w)⟩]

/-- Rows 6 to 10: families 3 to 7. -/
def rowsSkipLoad : List OpcodeRow :=
  [⟨0xF000, 0x3000, fun w => .seImm (fieldX w) (fieldKK w)⟩,
   ⟨0xF000, 0x4000, fun w => .sneImm (fieldX w) (fieldKK w)⟩,
   ⟨0xF00F, 0x5000, fun w => .seReg (fieldX w) (fieldY w)⟩,
   ⟨0xF000, 0x6000, fun w => .ldImm (fieldX w) (fieldKK w)⟩,
   ⟨0xF000, 0x7000, fun w => .addImm (fieldX w) (fieldKK w)⟩]

/-- Rows 11 to 19: family 8. -/
def rowsAlu : List OpcodeRow :=
  [⟨0xF00F, 0x8000, fun w => .ldReg (fieldX w) (fieldY w)⟩,
   ⟨0xF00F, 0x8001, fun w => .orReg (fieldX w) (fieldY w)⟩,
   ⟨0xF00F, 0x8002, fun w => .andReg (fieldX w) (fieldY w)⟩,
   ⟨0xF00F, 0x8003, fun w => .xorReg (fieldX w) (fieldY w)⟩,
   ⟨0xF00F, 0x8004, fun w => .addReg (fieldX w) (fieldY w)⟩,
   ⟨0xF00F, 0x8005, fun w => .subReg (fieldX w) (fieldY w)⟩,
   ⟨0xF00F, 0x8006, fun w => .shr (fieldX w) (fieldY w)⟩,
   ⟨0xF00F, 0x8007, fun w => .subn (fieldX w) (fieldY w)⟩,
   ⟨0xF00F, 0x800E, fun w => .shl (fieldX w) (fieldY w)⟩]

/-- Rows 20 to 26: families 9 to E. -/
def rowsMisc : List OpcodeRow :=
  [⟨0xF00F, 0x9000, fun w => .sneReg (fieldX w) (fieldY w)⟩,
   ⟨0xF000, 0xA000, fun w => .ldI (fieldNNN w)⟩,
   ⟨0xF000, 0xB000, fun w => .jpV0 (fieldNNN w)⟩,
   ⟨0xF000, 0xC000, fun w => .rnd (fieldX w) (fieldKK w)⟩,
   ⟨0xF000, 0xD000, fun w => .drw (fieldX w) (fieldY w) (fieldN w)⟩,
   ⟨0xF0FF, 0xE09E, fun w => .skp (fieldX w)⟩,
   ⟨0xF0FF, 0xE0A1, fun w => .sknp (fieldX w)⟩]

/-- Rows 27 to 35: family F. -/
def rowsTimerMemory : List OpcodeRow :=
  [⟨0xF0FF, 0xF007, fun w => .ldVxDT (fieldX w)⟩,
   ⟨0xF0FF, 0xF00A, fun w => .ldVxK (fieldX w)⟩,
   ⟨0xF0FF, 0xF015, fun w => .ldDTVx (fieldX w)⟩,
   ⟨0xF0FF, 0xF018, fun w => .ldSTVx (fieldX w)⟩,
   ⟨0xF0FF, 0xF01E, fun w => .addIVx (fieldX w)⟩,
   ⟨0xF0FF, 0xF029, fun w => .ldFVx (fieldX w)⟩,
   ⟨0xF0FF, 0xF033, fun w => .ldBVx (fieldX w)⟩,
   ⟨0xF0FF, 0xF055, fun w => .ldMemVx (fieldX w)⟩,
   ⟨0xF0FF, 0xF065, fun w => .ldVxMem (fieldX w)⟩]

/-- The opcode map, in the order of R85. -/
def opcodeRows : List OpcodeRow := rowsControl ++ rowsSkipLoad ++ rowsAlu ++ rowsMisc ++ rowsTimerMemory

/-- Decode one word: the first row, from the top, that it selects (R85, R89); no row, no instruction (R87). -/
def decodeWord (w : Word) : Except Reject Instr :=
  match opcodeRows.find? (fun r => r.selects w) with
  | some r => .ok (r.build w)
  | none => .error .unrecognizedOpcode

/-- Decode from bytes as memory holds them, high byte first (R80, 20_memory.md R52), with the bytes left over. -/
def decodeBytes (bytes : List Byte) : Except Reject (Instr × List Byte) :=
  match bytes with
  | hi :: lo :: rest =>
    match decodeWord (hi ++ lo) with
    | .ok i => .ok (i, rest)
    | .error e => .error e
  | [_] | [] => .error .fewerThanTwoBytes

/-- The two bytes of a word in memory order, high byte first (20_memory.md R52). -/
def wordBytes (w : Word) : List Byte := [w.extractLsb' 8 8, w.extractLsb' 0 8]

/-- The word of an opcode-table row's `nbits` bits `w`, every bit above `nbits` zero. -/
def tableWord (nbits w : Nat) : Word := BitVec.ofNat 16 (w % 2 ^ nbits)

/-- What this decoder reads from the instruction whose bits are `w`, numbered as spec/opcode_table.json numbers them. -/
def decodeTableWord (nbits w : Nat) : Option Instr :=
  match decodeBytes (wordBytes (tableWord nbits w)) with
  | .ok (i, _) => some i
  | .error _ => none

/-! ## The encoder (R82) -/

/-- Format NNN. -/
def encNNN (op : BitVec 4) (nnn : Addr12) : Word := op ++ nnn

/-- Format XKK, and XSS with the sub-opcode byte in the place of KK. -/
def encXKK (op : BitVec 4) (x : Reg) (kk : Byte) : Word := op ++ (BitVec.ofFin x : BitVec 4) ++ kk

/-- Format XYN, and XYS with the sub-opcode nibble in the place of N. -/
def encXYN (op : BitVec 4) (x y n : Fin 16) : Word :=
  op ++ (BitVec.ofFin x : BitVec 4) ++ (BitVec.ofFin y : BitVec 4) ++ (BitVec.ofFin n : BitVec 4)

/-- The word of an instruction (R82, R85). -/
def encode (i : Instr) : Word :=
  match i with
  | .cls => 0x00E0
  | .ret => 0x00EE
  | .sys nnn => encNNN 0x0 nnn
  | .jp nnn => encNNN 0x1 nnn
  | .call nnn => encNNN 0x2 nnn
  | .seImm x kk => encXKK 0x3 x kk
  | .sneImm x kk => encXKK 0x4 x kk
  | .seReg x y => encXYN 0x5 x y 0x0
  | .ldImm x kk => encXKK 0x6 x kk
  | .addImm x kk => encXKK 0x7 x kk
  | .ldReg x y => encXYN 0x8 x y 0x0
  | .orReg x y => encXYN 0x8 x y 0x1
  | .andReg x y => encXYN 0x8 x y 0x2
  | .xorReg x y => encXYN 0x8 x y 0x3
  | .addReg x y => encXYN 0x8 x y 0x4
  | .subReg x y => encXYN 0x8 x y 0x5
  | .shr x y => encXYN 0x8 x y 0x6
  | .subn x y => encXYN 0x8 x y 0x7
  | .shl x y => encXYN 0x8 x y 0xE
  | .sneReg x y => encXYN 0x9 x y 0x0
  | .ldI nnn => encNNN 0xA nnn
  | .jpV0 nnn => encNNN 0xB nnn
  | .rnd x kk => encXKK 0xC x kk
  | .drw x y n => encXYN 0xD x y n
  | .skp x => encXKK 0xE x 0x9E
  | .sknp x => encXKK 0xE x 0xA1
  | .ldVxDT x => encXKK 0xF x 0x07
  | .ldVxK x => encXKK 0xF x 0x0A
  | .ldDTVx x => encXKK 0xF x 0x15
  | .ldSTVx x => encXKK 0xF x 0x18
  | .addIVx x => encXKK 0xF x 0x1E
  | .ldFVx x => encXKK 0xF x 0x29
  | .ldBVx x => encXKK 0xF x 0x33
  | .ldMemVx x => encXKK 0xF x 0x55
  | .ldVxMem x => encXKK 0xF x 0x65

end Sys2Proof
end

