-- ==== Sys2Proof/Config.lean ====
section
/-! DEFINITION. What one implementation fixes (spec 00_scope.md R6) and the free values the spec leaves to the host
(93_implementation_defined.md U1, U2, U3). -/

namespace Sys2Proof.Config

/-- `MEM_SIZE`: addresses 0x000 to 0xFFF (R6, 20_memory.md R50). -/
abbrev memSize : Nat := 4096

/-- `PROG_BASE`: first byte of the writable region and ROM load address (R6, R59). -/
abbrev progBase : Nat := 0x200

/-- `ROM_MAX` = `MEM_SIZE - PROG_BASE` (R6). -/
abbrev romMax : Nat := 3584

/-- `FONT_BASE`. UNVERIFIED (the spec's decision D2; log 7), unsafe. -/
abbrev fontBase : Nat := 0x000

/-- `GLYPH_BYTES` (R6). -/
abbrev glyphBytes : Nat := 5

/-- `PC_RESET` (R6, R28; log 33). -/
abbrev pcReset : Word := 0x0200

/-- The `keys` port at the turns the state's script does not fix: any value (U2, 10_state.md R39). Free value, log 1. -/
opaque hostKeys : Nat → BitVec 16

/-- The `rnd` port at the turns the state's script does not fix: a free 8-bit draw, under no law (U1, R40). Free value,
log 1. -/
opaque hostRnd : Nat → BitVec 8

/-- How many `tick` transactions the host issues after the step of a turn the script does not fix: any number (U3,
50_engine_and_interface.md R201, R215). Free value, log 2. -/
opaque hostTicks : Nat → Nat

end Sys2Proof.Config
end

