-- ==== Sys2Proof/Machine/State.lean ====
section
/-! DEFINITION. The architectural state (spec 10_state.md R20 to R42), the reasons a step stops, and the state after reset
(70_reset_and_hazards.md R260). -/

namespace Sys2Proof.Machine

/-- The closed fault taxonomy (60_exceptions.md R230). A fault is the step's reported outcome; the state it leaves is
`State.afterFault` (R236). All are safe: the machine stops here where the host could go on (log 3). -/
inductive Fault where
  /-- Fetch at `pc >= 0xFFF`, or DXYN, FX33, FX55, FX65 with an address above 0xFFF (R231). Safe. -/
  | addressOutOfRange
  /-- Decode of a word in no row of the opcode map (R232). Safe. -/
  | unrecognizedOpcode
  /-- 1NNN, 2NNN, BNNN with a target outside 0x200 to 0xFFF (R233). Safe. -/
  | illegalJumpTarget
  /-- 2NNN when the stack holds 16 entries (R234). Safe. -/
  | stackOverflow
  /-- 00EE when the stack is empty (R235). Safe. -/
  | stackUnderflow
  /-- `load` of more than 3584 bytes; never a step (R237). Safe. -/
  | romTooLarge
  deriving DecidableEq, Repr

/-- Why the model gives no meaning. -/
inductive Refusal where
  /-- Raised by a rejected arm of `exec`; no arm is rejected. Safe. -/
  | notModelled (mnemonic : String)
  /-- Raised by `load` after the first step: "the model refuses it (gives it no meaning)" (50_engine_and_interface.md
  R204, decision D25, log 27). Safe. -/
  | loadAfterFirstStep
  deriving DecidableEq, Repr

/-- What a step reports (50_engine_and_interface.md R210). -/
inductive StepOutcome where
  /-- One instruction was executed completely, or a pending FX0A completed (R211). -/
  | continued
  /-- The core is in the key wait (R211). -/
  | awaitingKey
  /-- Reserved: "This core never reports `Halted`" (R211, D20, log 22). -/
  | halted
  /-- The step detected the named error and changed nothing (R211). -/
  | fault (reason : Fault)
  deriving DecidableEq, Repr

/-- What the host does around one step (R202): the input ports it presents to the step, and how many `tick` transactions
it issues after it and before the next (R201, R215). The model's own type: inputs are no state of the core (10_state.md
R42, log 1). -/
structure HostTurn where
  keys  : BitVec 16
  rnd   : Byte
  ticks : Nat
  deriving DecidableEq, Repr

/-- 32 rows of 64 one-bit pixels, `fb[y][x]` (10_state.md R33). -/
abbrev Framebuffer := Vector (Vector Bool 64) 32

/-- The listed bytes of `mem`: those that differ from the reset contents, addresses rising (`Memory.wf`; R35, R36). -/
abbrev Memory := List Host.Cell

/-- The state of one core (10_state.md R20), its outcome port (R41), and the host's remaining moves (log 1). -/
structure State where
  /-- `V[0..15]` (R21). -/
  v         : Vector Byte 16
  /-- `I` (R25). -/
  i         : Word
  /-- `pc` (R26). -/
  pc        : Word
  /-- `stack[0..15]` (R29). -/
  stack     : Vector Word 16
  /-- `sp`, the number of valid entries, 0 to 16 (R29, R32; log 6). -/
  sp        : Fin 17
  /-- `DT` (R31). -/
  dt        : Byte
  /-- `ST` (R31). -/
  st        : Byte
  /-- `fb` (R33). -/
  fb        : Framebuffer
  /-- `mem` (R35). -/
  mem       : Memory
  /-- `wait_valid` (R37). -/
  waitValid : Bool
  /-- `wait_x` (R37). -/
  waitX     : Reg
  /-- `key_prev` (R37). -/
  keyPrev   : BitVec 16
  /-- `booted` (R38). -/
  booted    : Bool
  /-- The outcome of the most recent step, none before the first (R41 (a), R210, R216; log 5). -/
  outcome   : Option StepOutcome
  /-- The model's: host turns already fixed, the next one first (log 1). -/
  script    : List HostTurn
  /-- The model's: which free host turn comes next when `script` is empty (log 1). -/
  turn      : Nat
  deriving DecidableEq, Repr

/-- The state after `reset` (50_engine_and_interface.md R203, 70_reset_and_hazards.md R260). Memory lists nothing: an
unlisted byte reads as its reset contents. `script` and `turn` are the model's (DESIGN CHOICE, log 1). -/
def State.reset : State where
  v         := Vector.replicate 16 0x00
  i         := 0x0000
  pc        := Config.pcReset
  stack     := Vector.replicate 16 0x0000
  sp        := 0
  dt        := 0x00
  st        := 0x00
  fb        := Vector.replicate 32 (Vector.replicate 64 false)
  mem       := []
  waitValid := false
  waitX     := 0
  keyPrev   := 0x0000
  booted    := false
  outcome   := none
  script    := []
  turn      := 0

end Sys2Proof.Machine
end

