-- ==== Sys2Proof/Machine/Flags.lean ====
section
/-! DEFINITION. Every flag computation (spec 10_state.md R24, 43_alu.md R140). The collision flag is gathered while
drawing (Machine/Display.lean, 44_display.md R161) and written through `flagByte` like the others. -/

namespace Sys2Proof.Machine

/-- A flag as the full 8-bit value VF receives, 0x00 or 0x01 (R140 (e)). -/
def flagByte (b : Bool) : Byte := if b then 0x01 else 0x00

/-- The carry of `a + b`: the unsigned sum exceeds 255 (R145). -/
def carry (a b : Byte) : Bool := decide (255 < a.toNat + b.toNat)

/-- The not-borrow of `a - b`: minuend at least subtrahend (R146, R148). -/
def notBorrow (a b : Byte) : Bool := decide (b.toNat ≤ a.toNat)

/-- The bit a right shift by one puts out, bit 0 (R147). -/
def shiftedOutRight (a : Byte) : Bool := a.getLsbD 0

/-- The bit a left shift by one puts out, bit 7 (R149). -/
def shiftedOutLeft (a : Byte) : Bool := a.getLsbD 7

end Sys2Proof.Machine
end

