-- ==== Sys2Proof/Machine/Memory.lean ====
section
/-! DEFINITION. The 4096-byte memory (spec 20_memory.md): what an unlisted byte reads as, one byte's read and write in
the canonical form, and the access primitives of R53 to R56 over blocks of bytes. -/

namespace Sys2Proof.Machine

/-- Glyphs 0 to 7 of the font table (20_memory.md R58). UNVERIFIED (the spec's decision D3; log 7), unsafe. -/
def fontGlyphs0to7 : List Byte :=
  [0xF0, 0x90, 0x90, 0x90, 0xF0] ++ [0x20, 0x60, 0x20, 0x20, 0x70] ++
  [0xF0, 0x10, 0xF0, 0x80, 0xF0] ++ [0xF0, 0x10, 0xF0, 0x10, 0xF0] ++
  [0x90, 0x90, 0xF0, 0x10, 0x10] ++ [0xF0, 0x80, 0xF0, 0x10, 0xF0] ++
  [0xF0, 0x80, 0xF0, 0x90, 0xF0] ++ [0xF0, 0x10, 0x20, 0x40, 0x40]

/-- Glyphs 8 to F of the font table (20_memory.md R58). UNVERIFIED (D3; log 7), unsafe. -/
def fontGlyphs8toF : List Byte :=
  [0xF0, 0x90, 0xF0, 0x90, 0xF0] ++ [0xF0, 0x90, 0xF0, 0x10, 0xF0] ++
  [0xF0, 0x90, 0xF0, 0x90, 0x90] ++ [0xE0, 0x90, 0xE0, 0x90, 0xE0] ++
  [0xF0, 0x80, 0x80, 0x80, 0xF0] ++ [0xE0, 0x90, 0x90, 0x90, 0xE0] ++
  [0xF0, 0x80, 0xF0, 0x80, 0xF0] ++ [0xF0, 0x80, 0xF0, 0x80, 0x80]

/-- The 80 bytes of the font table. -/
def fontTable : List Byte := fontGlyphs0to7 ++ fontGlyphs8toF

/-- What an address that memory does not list reads as: the reset contents, the font at `FONT_BASE` and 0x00 elsewhere
(10_state.md R36). The zeros are UNVERIFIED (the spec's decision D4; log 8), unsafe. -/
def Memory.unlisted (a : Nat) : Byte :=
  if Config.fontBase ≤ a ∧ a < Config.fontBase + 80 then (fontTable[a - Config.fontBase]?).getD 0x00 else 0x00

/-- The canonical form: addresses inside the space and strictly rising, no entry equal to what an unlisted address reads
as. -/
def Memory.wf (m : Memory) : Bool :=
  decide (m.Pairwise fun c d => c.1 < d.1) && m.all fun c => decide (c.1 < Config.memSize) && c.2 != Memory.unlisted c.1

/-- `mem[a]` (R53). -/
def Memory.get (m : Memory) (a : Nat) : Byte :=
  match m with
  | [] => Memory.unlisted a
  | (k, b) :: rest => if k = a then b else Memory.get rest a

/-- Drop what is listed for `a`. -/
def Memory.erase (m : Memory) (a : Nat) : Memory := m.filter fun c => c.1 != a

/-- List `b` at `a`, keeping the order. -/
def Memory.insert (m : Memory) (a : Nat) (b : Byte) : Memory :=
  match m with
  | [] => [(a, b)]
  | (k, c) :: rest => if k < a then (k, c) :: Memory.insert rest a b else (a, b) :: (k, c) :: rest

/-- `mem[a] <- b` (R54), in the canonical form. -/
def Memory.put (m : Memory) (a : Nat) (b : Byte) : Memory :=
  if b = Memory.unlisted a then Memory.erase m a else Memory.insert (Memory.erase m a) a b

/-- `mem[a + k] <- bytes[k]` at increasing addresses (R52, R54). -/
def Memory.putAll (m : Memory) (a : Nat) (bytes : List Byte) : Memory :=
  match bytes with
  | [] => m
  | b :: rest => Memory.putAll (Memory.put m a b) (a + 1) rest

/-- Some address of a block of `n` bytes at `a` is above 0xFFF (R56): "the instruction faults exactly when its highest
address `I + count - 1 > 0xFFF` with `count >= 1`". Addresses are natural numbers, never reduced (R55; log 26). -/
def Memory.outside (a n : Nat) : Bool := decide (1 ≤ n ∧ 0xFFF < a + n - 1)

/-- `MemRead` of `n` single bytes at `a` upward, all or nothing (R53, R56). -/
def Memory.readBlock (m : Memory) (a n : Nat) : Except Fault (List Byte) :=
  if Memory.outside a n then .error .addressOutOfRange
  else .ok ((List.range n).map fun k => Memory.get m (a + k))

/-- `MemWrite` of single bytes at `a` upward, all or nothing (R54, R56). A store below 0x200 is performed (R60; log 21). -/
def Memory.writeBlock (m : Memory) (a : Nat) (bytes : List Byte) : Except Fault Memory :=
  if Memory.outside a bytes.length then .error .addressOutOfRange else .ok (Memory.putAll m a bytes)

/-- `MemRead(a, 2)`, fetch only, big-endian (R52, R53). -/
def Memory.read16 (m : Memory) (a : Nat) : Except Fault Word :=
  if Memory.outside a 2 then .error .addressOutOfRange else .ok (Memory.get m a ++ Memory.get m (a + 1))

end Sys2Proof.Machine
end

