-- ==== Sys2Proof/Machine/Operands.lean ====
section
/-! DEFINITION. Every operand form of the 35 instructions (spec 30_encoding.md R83, 20_memory.md R55, 45_keypad.md R170). -/

namespace Sys2Proof.Machine

/-- `zext_16(NNN)` (R83). -/
def zext16 (nnn : Addr12) : Word := nnn.setWidth 16

/-- The target of BNNN: `NNN + V[0]`, a natural number, not truncated (40_control_transfer.md R114). -/
def offsetTarget (nnn : Addr12) (v0 : Byte) : Nat := nnn.toNat + v0.toNat

/-- A jump or call target lies in the writable region 0x200 to 0xFFF (20_memory.md R61). -/
def legalTarget (t : Nat) : Bool := decide (Config.progBase ≤ t ∧ t < Config.memSize)

/-- The column of a sprite's left edge, `V[X] mod 64` (44_display.md R161). -/
def spriteColumn (v : Byte) : Nat := v.toNat % 64

/-- The row of a sprite's top edge, `V[Y] mod 32` (R161). -/
def spriteRow (v : Byte) : Nat := v.toNat % 32

/-- Whether the key whose index is the whole register value is pressed; an index above 15 names no key (45_keypad.md
R170; log 19). -/
def keyPressed (keys : BitVec 16) (k : Byte) : Bool := decide (k.toNat ≤ 15) && keys.getLsbD k.toNat

/-- Keys down now that were up at the previous sample (R173). -/
def newlyPressed (keys prev : BitVec 16) : BitVec 16 := keys &&& ~~~prev

/-- The least index of a set bit, if any (R173; log 20). -/
def lowestKey (keys : BitVec 16) : Option Nat := (List.range 16).find? fun k => keys.getLsbD k

/-- The address of the glyph of the register's low nibble (46_timer_index_memory.md R184). -/
def glyphAddress (v : Byte) : Word := BitVec.ofNat 16 (Config.fontBase + Config.glyphBytes * (v.extractLsb' 0 4).toNat)

/-- Hundreds, tens and ones, in the order they are stored (R185; log 23). -/
def decimalDigits (v : Byte) : List Byte :=
  [BitVec.ofNat 8 (v.toNat / 100), BitVec.ofNat 8 (v.toNat / 10 % 10), BitVec.ofNat 8 (v.toNat % 10)]

/-- `V[0]` to `V[X]`, in order (R186). -/
def firstRegisters (v : Vector Byte 16) (x : Reg) : List Byte := v.toList.take (x.val + 1)

/-- The register file after `V[k] <- bytes[k]` for every byte given (R187). -/
def loadRegisters (v : Vector Byte 16) (bytes : List Byte) : Vector Byte 16 :=
  Vector.ofFn fun r : Reg => (bytes[r.val]?).getD v[r]

end Sys2Proof.Machine
end

