-- ==== Sys2Proof/Machine/Ops.lean ====
section
/-! DEFINITION. The named operations over registers, stack, memory and host turns that the meanings share, fetching, and
what reporting a fault does (spec 60_exceptions.md R236, R241: there is no trap entry and no return from one, R242). -/

namespace Sys2Proof.Machine

/-! ## One field at a time -/

/-- `V[x] <- b` (10_state.md R21: no register is hardwired). -/
def State.setV (s : State) (x : Reg) (b : Byte) : State := { s with v := s.v.set x.val b x.isLt }

/-- The whole register file at once. -/
def State.setRegs (s : State) (v : Vector Byte 16) : State := { s with v := v }

/-- `I <- w` (R25). -/
def State.setI (s : State) (w : Word) : State := { s with i := w }

/-- `pc <- w` (R26). -/
def State.setPc (s : State) (w : Word) : State := { s with pc := w }

/-- `DT <- b` (R31). -/
def State.setDT (s : State) (b : Byte) : State := { s with dt := b }

/-- `ST <- b` (R31). -/
def State.setST (s : State) (b : Byte) : State := { s with st := b }

/-- `fb <- f` (R33). -/
def State.setFb (s : State) (f : Framebuffer) : State := { s with fb := f }

/-- `mem <- m` (R35). -/
def State.setMem (s : State) (m : Memory) : State := { s with mem := m }

/-- The stack and its pointer (R29). -/
def State.setStack (s : State) (stack : Vector Word 16) (sp : Fin 17) : State := { s with stack := stack, sp := sp }

/-- The three wait registers (R37). -/
def State.setWait (s : State) (valid : Bool) (x : Reg) (prev : BitVec 16) : State :=
  { s with waitValid := valid, waitX := x, keyPrev := prev }

/-- The outcome port (R41 (a)). -/
def State.setOutcome (s : State) (o : StepOutcome) : State := { s with outcome := some o }

/-- `booted <- 1` (R38). -/
def State.setBooted (s : State) : State := { s with booted := true }

/-! ## The program counter (R27) -/

/-- `pc <- pc + 2`, the size of one instruction (R26). -/
def State.advance (s : State) : State := s.setPc (s.pc + 2)

/-- `if c then pc <- pc + 4 else pc <- pc + 2` (R27, 41_skips.md). -/
def State.skipIf (s : State) (c : Bool) : State := s.setPc (if c then s.pc + 4 else s.pc + 2)

/-! ## A result with its flag -/

/-- The result register is written, then VF, so that the flag write wins (R24, 43_alu.md R140 (d)). -/
def State.setResultThenFlag (s : State) (x : Reg) (result : Byte) (flag : Bool) : State :=
  (s.setV x result).setV VF (flagByte flag)

/-! ## Faults -/

/-- `raise Fault(reason)`: the step ends and reports the reason; control goes nowhere (60_exceptions.md R241). Every fault
of a step is reported here (log 3). -/
def raise (reason : Fault) : Host.Outcome State Fault Refusal := .fault reason

/-- The state a fault leaves: everything as before the step, except `booted` and the outcome port (R236, R238). -/
def State.afterFault (s : State) (reason : Fault) : State := s.setBooted.setOutcome (.fault reason)

/-- A checked operation's result as the outcome of the instruction. -/
def finish (r : Except Fault State) : Host.Outcome State Fault Refusal :=
  match r with
  | .ok t => .next t
  | .error reason => raise reason

/-! ## Control transfer -/

/-- `pc <- target`, or IllegalJumpTarget when the target is outside the writable region (20_memory.md R61). -/
def State.jumpTo (s : State) (target : Nat) : Except Fault State :=
  if legalTarget target then .ok (s.setPc (BitVec.ofNat 16 target)) else .error .illegalJumpTarget

/-- Push (10_state.md R29): StackOverflow when 16 entries are valid, the stack then untouched (R30). -/
def State.push (s : State) (a : Word) : Except Fault State :=
  if h : s.sp.val < 16 then .ok (s.setStack (s.stack.set s.sp.val a h) ⟨s.sp.val + 1, by omega⟩)
  else .error .stackOverflow

/-- Pop (R29): StackUnderflow when no entry is valid; the entry stays as it was. -/
def State.pop (s : State) : Except Fault (Word × State) :=
  if _h : 1 ≤ s.sp.val then .ok (s.stack[s.sp.val - 1], s.setStack s.stack ⟨s.sp.val - 1, by omega⟩)
  else .error .stackUnderflow

/-! ## The host's turn (50_engine_and_interface.md R201, R202) -/

/-- What the host does around the next step: the script's first entry, or the free values of this turn (log 1). -/
def State.hostTurn (s : State) : HostTurn :=
  match s.script with
  | h :: _ => h
  | [] => ⟨Config.hostKeys s.turn, Config.hostRnd s.turn, Config.hostTicks s.turn⟩

/-- The `keys` port sampled by this step (10_state.md R39). -/
def State.keys (s : State) : BitVec 16 := s.hostTurn.keys

/-- The `rnd` port sampled by this step (R40). -/
def State.rnd (s : State) : Byte := s.hostTurn.rnd

/-- One timer under one tick: decremented if non-zero (50_engine_and_interface.md R215). -/
def tickTimer (t : Byte) : Byte := if t = 0 then 0 else t - 1

/-- One timer under `n` ticks, saturating at 0 (`countDown_eq_iterate` in Laws: `n` times `tickTimer`). -/
def countDown (n : Nat) (t : Byte) : Byte := if t = 0 then 0 else BitVec.ofNat 8 (t.toNat - n)

/-- The `tick` transaction (R215). -/
def State.tick (s : State) : State := { s with dt := tickTimer s.dt, st := tickTimer s.st }

/-- The host's moves after a step: its ticks (R201, R215), then the next turn (log 1, log 2). -/
def State.hostMoves (s : State) : State :=
  { s with
    dt := countDown s.hostTurn.ticks s.dt
    st := countDown s.hostTurn.ticks s.st
    script := s.script.tail
    turn := s.turn + 1 }

/-! ## The parts of a step that are no instruction's (R205) -/

/-- A step begins: `booted <- 1`, and the outcome is Continue unless the instruction sets it (R205). -/
def State.beginStep (s : State) : State := s.setBooted.setOutcome .continued

/-- A step ends: after a next state the host has its turn. -/
def endStep (o : Host.Outcome State Fault Refusal) : Host.Outcome State Fault Refusal :=
  match o with
  | .next t => .next t.hostMoves
  | .fault reason => .fault reason
  | .refused reason => .refused reason

/-- Fetch: AddressOutOfRange when `pc + 1 > 0xFFF`, else the big-endian word at `pc` (R206). -/
def State.fetch (s : State) : Except Fault Word := Memory.read16 s.mem s.pc.toNat

end Sys2Proof.Machine
end

