-- ==== Sys2Proof/Machine/Alu.lean ====
section
/-! DEFINITION. The register-register ALU family: 8XY0 to 8XY7, 8XYE (spec 43_alu.md R140 to R149). -/

namespace Sys2Proof.Machine

/-- `LD Vx, Vy` (R141). -/
def execLdReg (x y : Reg) (s : State) : Host.Outcome State Fault Refusal := .next (s.setV x s.v[y]).advance

/-- `OR Vx, Vy`: VF keeps its value (R142, R140 (g); log 11). -/
def execOrReg (x y : Reg) (s : State) : Host.Outcome State Fault Refusal := .next (s.setV x (s.v[x] ||| s.v[y])).advance

/-- `AND Vx, Vy`: VF keeps its value (R143, R140 (g); log 11). -/
def execAndReg (x y : Reg) (s : State) : Host.Outcome State Fault Refusal := .next (s.setV x (s.v[x] &&& s.v[y])).advance

/-- `XOR Vx, Vy`: VF keeps its value (R144, R140 (g); log 11). -/
def execXorReg (x y : Reg) (s : State) : Host.Outcome State Fault Refusal := .next (s.setV x (s.v[x] ^^^ s.v[y])).advance

/-- `ADD Vx, Vy`: VF is the carry (R145). -/
def execAddReg (x y : Reg) (s : State) : Host.Outcome State Fault Refusal :=
  .next (s.setResultThenFlag x (s.v[x] + s.v[y]) (carry s.v[x] s.v[y])).advance

/-- `SUB Vx, Vy`: `V[X] - V[Y]`, VF is the not-borrow (R146). -/
def execSubReg (x y : Reg) (s : State) : Host.Outcome State Fault Refusal :=
  .next (s.setResultThenFlag x (s.v[x] - s.v[y]) (notBorrow s.v[x] s.v[y])).advance

/-- `SHR Vx`: `V[X]` in place, Y ignored, VF the bit shifted out (R147; log 10). -/
def execShr (x _y : Reg) (s : State) : Host.Outcome State Fault Refusal :=
  .next (s.setResultThenFlag x (s.v[x] >>> 1) (shiftedOutRight s.v[x])).advance

/-- `SUBN Vx, Vy`: `V[Y] - V[X]`, VF is the not-borrow (R148). -/
def execSubn (x y : Reg) (s : State) : Host.Outcome State Fault Refusal :=
  .next (s.setResultThenFlag x (s.v[y] - s.v[x]) (notBorrow s.v[y] s.v[x])).advance

/-- `SHL Vx`: `V[X]` in place, Y ignored, VF the bit shifted out (R149; log 10). -/
def execShl (x _y : Reg) (s : State) : Host.Outcome State Fault Refusal :=
  .next (s.setResultThenFlag x (s.v[x] <<< 1) (shiftedOutLeft s.v[x])).advance

end Sys2Proof.Machine
end

