-- ==== Sys2Proof/Machine/Control.lean ====
section
/-! DEFINITION. Control transfer: 0NNN, 00EE, 1NNN, 2NNN, BNNN (spec 40_control_transfer.md R110 to R114). -/

namespace Sys2Proof.Machine

/-- `SYS nnn`: a no-operation; NNN is ignored (R110). -/
def execSys (_nnn : Addr12) (s : State) : Host.Outcome State Fault Refusal := .next s.advance

/-- `RET`: the popped entry becomes `pc`, not range-checked (R111; log 32). -/
def execRet (s : State) : Host.Outcome State Fault Refusal :=
  match s.pop with
  | .ok (a, t) => .next (t.setPc a)
  | .error reason => raise reason

/-- `JP nnn` (R112). -/
def execJp (nnn : Addr12) (s : State) : Host.Outcome State Fault Refusal := finish (s.jumpTo nnn.toNat)

/-- `CALL nnn`: the target is checked first, then the address of the next instruction is pushed (R113; log 15). -/
def execCall (nnn : Addr12) (s : State) : Host.Outcome State Fault Refusal :=
  match s.jumpTo nnn.toNat with
  | .error reason => raise reason
  | .ok t => finish (t.push (s.pc + 2))

/-- `JP V0, nnn`: the untruncated sum is the target and is checked (R114; log 14). -/
def execJpV0 (nnn : Addr12) (s : State) : Host.Outcome State Fault Refusal :=
  finish (s.jumpTo (offsetTarget nnn s.v[(0 : Reg)]))

end Sys2Proof.Machine
end

