-- ==== Sys2Proof/Machine/Display.lean ====
section
/-! DEFINITION. The display: 00E0, DXYN and its collision detector (spec 44_display.md R160 to R163). -/

namespace Sys2Proof.Machine

/-- All pixels 0 (R160). -/
def blankFb : Framebuffer := Vector.replicate 32 (Vector.replicate 64 false)

/-- `CLS` (R160). -/
def execCls (s : State) : Host.Outcome State Fault Refusal := .next (s.setFb blankFb).advance

/-- The pixel a sprite bit falls on: every coordinate is reduced modulo the dimension (R161 (b); log 16). -/
def pixelAt (x0 y0 r c : Nat) : Fin 64 × Fin 32 :=
  (⟨(x0 + c) % 64, Nat.mod_lt _ (by decide)⟩, ⟨(y0 + r) % 32, Nat.mod_lt _ (by decide)⟩)

/-- `fb[py][px]`. -/
def pixel (fb : Framebuffer) (p : Fin 64 × Fin 32) : Bool := fb[p.2][p.1]

/-- `fb[py][px] <- fb[py][px] ^ 1`. -/
def togglePixel (fb : Framebuffer) (p : Fin 64 × Fin 32) : Framebuffer :=
  fb.set p.2.val (fb[p.2].set p.1.val (!pixel fb p) p.1.isLt) p.2.isLt

/-- The framebuffer while a sprite is drawn, and whether a set pixel has been met so far (R161, R163). -/
structure Drawing where
  fb        : Framebuffer
  collision : Bool
  deriving DecidableEq, Repr

/-- One sprite bit: a 1 bit inverts its pixel and collides if the pixel was 1; a 0 bit leaves it alone (R161 (a)). -/
def drawBit (d : Drawing) (p : Fin 64 × Fin 32) (bit : Bool) : Drawing :=
  if bit then ⟨togglePixel d.fb p, d.collision || pixel d.fb p⟩ else d

/-- One sprite row: 8 pixels, bit 7 of the byte leftmost (R161 (c); log 17). -/
def drawRow (x0 y0 r : Nat) (b : Byte) (d : Drawing) : Drawing :=
  (List.range 8).foldl (fun e c => drawBit e (pixelAt x0 y0 r c) (b.getLsbD (7 - c))) d

/-- The sprite's rows from row `r` on, successive bytes going down (R161 (c); log 17). -/
def drawRows (x0 y0 r : Nat) (bytes : List Byte) (d : Drawing) : Drawing :=
  match bytes with
  | [] => d
  | b :: rest => drawRows x0 y0 (r + 1) rest (drawRow x0 y0 r b d)

/-- `DRW Vx, Vy, n`: the sprite bytes are read before anything is written; VF is written last, also when N = 0 (R161;
log 18). -/
def execDrw (x y : Reg) (n : Rows) (s : State) : Host.Outcome State Fault Refusal :=
  match Memory.readBlock s.mem s.i.toNat n.val with
  | .error reason => raise reason
  | .ok bytes =>
    let d := drawRows (spriteColumn s.v[x]) (spriteRow s.v[y]) 0 bytes ⟨s.fb, false⟩
    .next ((s.setFb d.fb).setV VF (flagByte d.collision)).advance

end Sys2Proof.Machine
end

