-- ==== Sys2Proof/Machine/Keypad.lean ====
section
/-! DEFINITION. The keypad: EX9E, EXA1, FX0A and the step while waiting (spec 45_keypad.md R170 to R174). -/

namespace Sys2Proof.Machine

/-- `SKP Vx` (R170). -/
def execSkp (x : Reg) (s : State) : Host.Outcome State Fault Refusal := .next (s.skipIf (keyPressed s.keys s.v[x]))

/-- `SKNP Vx` (R171). -/
def execSknp (x : Reg) (s : State) : Host.Outcome State Fault Refusal := .next (s.skipIf (!keyPressed s.keys s.v[x]))

/-- `LD Vx, K`: entry into the wait; `pc` stays and no register is written (R172; log 20). -/
def execLdVxK (x : Reg) (s : State) : Host.Outcome State Fault Refusal :=
  .next ((s.setWait true x s.keys).setOutcome .awaitingKey)

/-- The step while waiting: no fetch, no fault (R173; log 20). -/
def State.resumeWait (s : State) : State :=
  match lowestKey (newlyPressed s.keys s.keyPrev) with
  | none => (s.setWait true s.waitX s.keys).setOutcome .awaitingKey
  | some k => (((s.setV s.waitX (BitVec.ofNat 8 k)).setWait false s.waitX s.keyPrev).advance).setOutcome .continued

end Sys2Proof.Machine
end

