-- ==== Sys2Proof/Machine/Loads.lean ====
section
/-! DEFINITION. Immediate loads, immediate add and random: 6XKK, 7XKK, ANNN, CXKK (spec 42_load_immediate.md R130 to
R133). -/

namespace Sys2Proof.Machine

/-- `LD Vx, kk` (R130). -/
def execLdImm (x : Reg) (kk : Byte) (s : State) : Host.Outcome State Fault Refusal := .next (s.setV x kk).advance

/-- `ADD Vx, kk`: modulo 256, no flag (R131). -/
def execAddImm (x : Reg) (kk : Byte) (s : State) : Host.Outcome State Fault Refusal :=
  .next (s.setV x (s.v[x] + kk)).advance

/-- `LD I, nnn` (R132). -/
def execLdI (nnn : Addr12) (s : State) : Host.Outcome State Fault Refusal := .next (s.setI (zext16 nnn)).advance

/-- `RND Vx, kk`: the random port of this step, masked (R133; log 1). -/
def execRnd (x : Reg) (kk : Byte) (s : State) : Host.Outcome State Fault Refusal := .next (s.setV x (s.rnd &&& kk)).advance

end Sys2Proof.Machine
end

