-- ==== Sys2Proof/Machine/Skips.lean ====
section
/-! DEFINITION. Conditional skips: 3XKK, 4XKK, 5XY0, 9XY0 (spec 41_skips.md R120 to R123). -/

namespace Sys2Proof.Machine

/-- `SE Vx, kk` (R120). -/
def execSeImm (x : Reg) (kk : Byte) (s : State) : Host.Outcome State Fault Refusal := .next (s.skipIf (s.v[x] == kk))

/-- `SNE Vx, kk` (R121). -/
def execSneImm (x : Reg) (kk : Byte) (s : State) : Host.Outcome State Fault Refusal := .next (s.skipIf (s.v[x] != kk))

/-- `SE Vx, Vy` (R122). -/
def execSeReg (x y : Reg) (s : State) : Host.Outcome State Fault Refusal := .next (s.skipIf (s.v[x] == s.v[y]))

/-- `SNE Vx, Vy` (R123). -/
def execSneReg (x y : Reg) (s : State) : Host.Outcome State Fault Refusal := .next (s.skipIf (s.v[x] != s.v[y]))

end Sys2Proof.Machine
end

