-- ==== Sys2Proof/Machine/TimerMemory.lean ====
section
/-! DEFINITION. Timers, index and memory blocks: FX07, FX15, FX18, FX1E, FX29, FX33, FX55, FX65 (spec
46_timer_index_memory.md R180 to R187). -/

namespace Sys2Proof.Machine

/-- `LD Vx, DT` (R180). -/
def execLdVxDT (x : Reg) (s : State) : Host.Outcome State Fault Refusal := .next (s.setV x s.dt).advance

/-- `LD DT, Vx` (R181). -/
def execLdDTVx (x : Reg) (s : State) : Host.Outcome State Fault Refusal := .next (s.setDT s.v[x]).advance

/-- `LD ST, Vx` (R182). -/
def execLdSTVx (x : Reg) (s : State) : Host.Outcome State Fault Refusal := .next (s.setST s.v[x]).advance

/-- `ADD I, Vx`: modulo 65536, VF unchanged (R183; log 13). -/
def execAddIVx (x : Reg) (s : State) : Host.Outcome State Fault Refusal :=
  .next (s.setI (s.i + (s.v[x]).setWidth 16)).advance

/-- `LD F, Vx` (R184). -/
def execLdFVx (x : Reg) (s : State) : Host.Outcome State Fault Refusal := .next (s.setI (glyphAddress s.v[x])).advance

/-- A store of single bytes at `I` upward, then the next instruction; `I` is not changed (R185, R186). -/
def State.storeAtI (s : State) (bytes : List Byte) : Host.Outcome State Fault Refusal :=
  match Memory.writeBlock s.mem s.i.toNat bytes with
  | .error reason => raise reason
  | .ok m => .next (s.setMem m).advance

/-- `LD B, Vx` (R185). -/
def execLdBVx (x : Reg) (s : State) : Host.Outcome State Fault Refusal := s.storeAtI (decimalDigits s.v[x])

/-- `LD [I], Vx` (R186; log 12). -/
def execLdMemVx (x : Reg) (s : State) : Host.Outcome State Fault Refusal := s.storeAtI (firstRegisters s.v x)

/-- `LD Vx, [I]`: registers above `V[X]` are not changed, nor is `I` (R187; log 12). -/
def execLdVxMem (x : Reg) (s : State) : Host.Outcome State Fault Refusal :=
  match Memory.readBlock s.mem s.i.toNat (x.val + 1) with
  | .error reason => raise reason
  | .ok bytes => .next (s.setRegs (loadRegisters s.v bytes)).advance

end Sys2Proof.Machine
end

