-- ==== Sys2Proof/Machine/Step.lean ====
section
/-! DEFINITION. The step transaction (spec 50_engine_and_interface.md R205) followed by the host's turn, and a word placed
where the next step fetches. -/

namespace Sys2Proof.Machine

/-- One step (R205): a waiting step resumes the wait and fetches nothing; otherwise fetch, decode, execute, the first fault
of the three being the one reported (60_exceptions.md R240). After a next state the host has its turn (log 1, log 2). -/
def step (s : State) : Host.Outcome State Fault Refusal :=
  if s.waitValid then endStep (.next s.beginStep.resumeWait)
  else
    match s.fetch with
    | .error reason => raise reason
    | .ok w =>
      match decodeWord w with
      | .error _ => raise .unrecognizedOpcode
      | .ok i => endStep (exec i s.beginStep)

/-- `s` with the word of the `nbits` bits `w` stored big-endian at `pc`, not waiting for a key; a `pc` from which no fetch
can succeed is first set to the ROM load address (log 4). -/
def State.withFetchWord (s : State) (nbits w : Nat) : State :=
  let pc : Word := if Memory.outside s.pc.toNat 2 then Config.pcReset else s.pc
  { s with pc := pc, waitValid := false, mem := Memory.putAll s.mem pc.toNat (wordBytes (tableWord nbits w)) }

end Sys2Proof.Machine
end

