-- ==== Sys2Proof/Machine/Transactions.lean ====
section
/-! DEFINITION. The rest of the host interface (spec 50_engine_and_interface.md R203, R204, R210, R215, R216): reset, load,
the step that goes on after a fault, and the output ports. The state after reset is State.reset, `tick` is State.tick. -/

namespace Sys2Proof.Machine

/-- What `load` reports (R204). -/
inductive LoadResult where
  | ok
  | fault (reason : Fault)
  | refused (reason : Refusal)
  deriving DecidableEq, Repr

/-- `load(bytes)` (R204): refused after the first step (D25, log 27), RomTooLarge above 3584 bytes with nothing written
(60_exceptions.md R237), else the bytes at 0x200 upward. -/
def State.load (s : State) (bytes : List Byte) : State × LoadResult :=
  if s.booted then (s, .refused .loadAfterFirstStep)
  else if Config.romMax < bytes.length then (s, .fault .romTooLarge)
  else (s.setMem (Memory.putAll s.mem Config.progBase bytes), .ok)

/-- The `reset` transaction, at any time (R203, 70_reset_and_hazards.md R262): the state after reset, whatever came before;
the host's side, which is no state of the core, goes on (log 34). -/
def State.restart (s : State) : State := { State.reset with script := s.script, turn := s.turn }

/-- A step after which the machine goes on whatever it reported (R212): a fault leaves the state as it was but for
`booted` and the outcome port (60_exceptions.md R236), and the host may tick before it steps again (R215). -/
def State.stepOn (s : State) : State :=
  match step s with
  | .next t => t
  | .fault reason => (s.afterFault reason).hostMoves
  | .refused _ => s

/-- `isSet(x, y)`; 6-bit and 5-bit inputs, so no coordinate outside the grid (10_state.md R34; log 30). -/
def State.isSet (s : State) (x : Fin 64) (y : Fin 32) : Bool := pixel s.fb (x, y)

/-- `sound_on = (ST != 0)` (10_state.md R41 (d)). -/
def State.soundOn (s : State) : Bool := s.st != 0

/-- The numeric outcome kind of a bit-level port (R210; log 24). -/
def StepOutcome.kind (o : StepOutcome) : BitVec 2 :=
  match o with
  | .continued => 0
  | .awaitingKey => 1
  | .halted => 2
  | .fault _ => 3

/-- The numeric code of a fault reason (R210; log 24). -/
def Fault.code (reason : Fault) : BitVec 3 :=
  match reason with
  | .addressOutOfRange => 1
  | .unrecognizedOpcode => 2
  | .illegalJumpTarget => 3
  | .stackOverflow => 4
  | .stackUnderflow => 5
  | .romTooLarge => 6

/-- The numeric outcome reason: the fault's code, 0 when the outcome is no fault (R210; log 24). -/
def StepOutcome.reasonCode (o : StepOutcome) : BitVec 3 :=
  match o with
  | .fault reason => reason.code
  | .continued | .awaitingKey | .halted => 0

end Sys2Proof.Machine
end

