-- ==== Sys2Proof/Safety.lean ====
section
/-! DEFINITION. The words statements are made in: which part of the state a frame keeps, when a step runs cleanly, the
invariant of the machine (spec 10_state.md R28, R32; 50_engine_and_interface.md R211), and the intact font region
(70_reset_and_hazards.md R268). -/

namespace Sys2Proof.Machine

/-! ## Frames -/

/-- A part of the state, as a frame names it; `host` is the host's side (`script` and `turn`). -/
inductive Part where
  | regs | index | pc | stack | dt | st | pixels | memory | wait | booted | outcome | host
  deriving DecidableEq, Repr

/-- The part reads in `t` as it reads in `s`: registers one by one, memory byte by byte, the screen pixel by pixel. -/
def SamePart (p : Part) (s t : State) : Prop :=
  match p with
  | .regs => ∀ r : Reg, t.v[r] = s.v[r]
  | .index => t.i = s.i
  | .pc => t.pc = s.pc
  | .stack => t.sp = s.sp ∧ ∀ k : Fin 16, t.stack[k] = s.stack[k]
  | .dt => t.dt = s.dt
  | .st => t.st = s.st
  | .pixels => ∀ (x : Fin 64) (y : Fin 32), t.isSet x y = s.isSet x y
  | .memory => ∀ a : Nat, Memory.get t.mem a = Memory.get s.mem a
  | .wait => t.waitValid = s.waitValid ∧ t.waitX = s.waitX ∧ t.keyPrev = s.keyPrev
  | .booted => t.booted = s.booted
  | .outcome => t.outcome = s.outcome
  | .host => t.script = s.script ∧ t.turn = s.turn

/-- Every part but those listed reads as before. -/
def KeepsAllBut (changed : List Part) (s t : State) : Prop := ∀ p : Part, p ∉ changed → SamePart p s t

/-- Every register but those listed reads as before. -/
def KeepsRegsBut (changed : List Reg) (s t : State) : Prop := ∀ r : Reg, r ∉ changed → t.v[r] = s.v[r]

/-- Every byte outside the `n` bytes at `a` reads as before. -/
def KeepsBytesOutside (a n : Nat) (s t : State) : Prop :=
  ∀ b : Nat, ¬(a ≤ b ∧ b < a + n) → Memory.get t.mem b = Memory.get s.mem b

/-! ## Runs -/

/-- Instructions executed one after the other, stopping at the first fault or refusal. -/
def execAll (is : List Instr) (s : State) : Host.Outcome State Fault Refusal :=
  match is with
  | [] => .next s
  | i :: rest =>
    match exec i s with
    | .next t => execAll rest t
    | .fault reason => .fault reason
    | .refused reason => .refused reason

/-- The step completes: no fault, no refusal. -/
def StepsCleanly (s : State) : Prop := ∃ t, step s = .next t

/-! ## The invariant -/

/-- What holds of every state a run reaches: memory in canonical form, `pc` in 0x200 to 0x1002 (R28), a fetchable `pc` while
waiting (R37, R172), every valid return address in 0x202 to 0x1000 (40_control_transfer.md R111), the outcome port telling
whether the core waits (R211), and an outcome only after a first step (R38, R41). -/
abbrev State.Inv (s : State) : Prop :=
  Memory.wf s.mem = true ∧
  (0x200 ≤ s.pc.toNat ∧ s.pc.toNat ≤ 0x1002) ∧
  (s.waitValid = true → s.pc.toNat ≤ 0xFFE) ∧
  (∀ k : Fin 16, k.val < s.sp.val → 0x202 ≤ (s.stack[k]).toNat ∧ (s.stack[k]).toNat ≤ 0x1000) ∧
  (s.waitValid = true ↔ s.outcome = some .awaitingKey) ∧
  (s.booted = true ↔ s.outcome ≠ none)

/-- No byte of the low region differs from its reset contents (20_memory.md R59, R60; 70 R268 (a)). -/
def FontIntact (s : State) : Prop := ∀ a : Nat, a < Config.progBase → Memory.get s.mem a = Memory.unlisted a

/-- The instructions that write VF as a flag (10_state.md R24). -/
def writesFlag (i : Instr) : Bool :=
  match i with
  | .addReg _ _ | .subReg _ _ | .shr _ _ | .subn _ _ | .shl _ _ | .drw _ _ _ => true
  | .cls | .ret | .sys _ | .jp _ | .call _ | .seImm _ _ | .sneImm _ _ | .seReg _ _ | .ldImm _ _ | .addImm _ _
  | .ldReg _ _ | .orReg _ _ | .andReg _ _ | .xorReg _ _ | .sneReg _ _ | .ldI _ | .jpV0 _ | .rnd _ _ | .skp _
  | .sknp _ | .ldVxDT _ | .ldVxK _ | .ldDTVx _ | .ldSTVx _ | .addIVx _ | .ldFVx _ | .ldBVx _ | .ldMemVx _
  | .ldVxMem _ => false

/-- The general registers an instruction names as destinations, its flag write apart (10_state.md R23; FX0A names its
destination but writes it only when the wait completes, 45_keypad.md R172, R173). -/
def destinations (i : Instr) : List Reg :=
  match i with
  | .ldImm x _ | .addImm x _ | .ldReg x _ | .orReg x _ | .andReg x _ | .xorReg x _ | .addReg x _ | .subReg x _
  | .shr x _ | .subn x _ | .shl x _ | .rnd x _ | .ldVxDT x => [x]
  | .ldVxMem x => (List.finRange 16).filter fun r => r ≤ x
  | .cls | .ret | .sys _ | .jp _ | .call _ | .seImm _ _ | .sneImm _ _ | .seReg _ _ | .sneReg _ _ | .ldI _ | .jpV0 _
  | .drw _ _ _ | .skp _ | .sknp _ | .ldVxK _ | .ldDTVx _ | .ldSTVx _ | .addIVx _ | .ldFVx _ | .ldBVx _
  | .ldMemVx _ => []

/-- The bytes an instruction stores to, as a first address and a count (20_memory.md R51): FX33 three at `I`, FX55 `X + 1`
at `I`, no other instruction any. -/
def storedBytes (i : Instr) (s : State) : Nat × Nat :=
  match i with
  | .ldBVx _ => (s.i.toNat, 3)
  | .ldMemVx x => (s.i.toNat, x.val + 1)
  | .cls | .ret | .sys _ | .jp _ | .call _ | .seImm _ _ | .sneImm _ _ | .seReg _ _ | .ldImm _ _ | .addImm _ _
  | .ldReg _ _ | .orReg _ _ | .andReg _ _ | .xorReg _ _ | .addReg _ _ | .subReg _ _ | .shr _ _ | .subn _ _
  | .shl _ _ | .sneReg _ _ | .ldI _ | .jpV0 _ | .rnd _ _ | .drw _ _ _ | .skp _ | .sknp _ | .ldVxDT _ | .ldVxK _
  | .ldDTVx _ | .ldSTVx _ | .addIVx _ | .ldFVx _ | .ldVxMem _ => (0, 0)

/-- What the byte at address `a` is once the instruction has completed (46_timer_index_memory.md R185, R186): a decimal digit
or a register where it stored there, else the old byte. -/
def byteAfterStore (i : Instr) (s : State) (a : Nat) : Byte :=
  match i with
  | .ldBVx x =>
    if a = s.i.toNat then BitVec.ofNat 8 ((s.v[x]).toNat / 100)
    else if a = s.i.toNat + 1 then BitVec.ofNat 8 ((s.v[x]).toNat / 10 % 10)
    else if a = s.i.toNat + 2 then BitVec.ofNat 8 ((s.v[x]).toNat % 10)
    else Memory.get s.mem a
  | .ldMemVx x => if h : s.i.toNat ≤ a ∧ a ≤ s.i.toNat + x.val then s.v[a - s.i.toNat] else Memory.get s.mem a
  | .cls | .ret | .sys _ | .jp _ | .call _ | .seImm _ _ | .sneImm _ _ | .seReg _ _ | .ldImm _ _ | .addImm _ _
  | .ldReg _ _ | .orReg _ _ | .andReg _ _ | .xorReg _ _ | .addReg _ _ | .subReg _ _ | .shr _ _ | .subn _ _
  | .shl _ _ | .sneReg _ _ | .ldI _ | .jpV0 _ | .rnd _ _ | .drw _ _ _ | .skp _ | .sknp _ | .ldVxDT _ | .ldVxK _
  | .ldDTVx _ | .ldSTVx _ | .addIVx _ | .ldFVx _ | .ldVxMem _ => Memory.get s.mem a

/-- Which fault, if any, an instruction raises once fetched and decoded (60_exceptions.md R239): the rows of the table that
belong to instructions, in the order of R240. -/
def faultTable (i : Instr) (s : State) : Option Fault :=
  match i with
  | .ret => if s.sp.val = 0 then some .stackUnderflow else none
  | .jp nnn => if nnn.toNat < 0x200 then some .illegalJumpTarget else none
  | .call nnn =>
    if nnn.toNat < 0x200 then some .illegalJumpTarget else if s.sp.val = 16 then some .stackOverflow else none
  | .jpV0 nnn =>
    if nnn.toNat + (s.v[(0 : Reg)]).toNat < 0x200 ∨ 0xFFF < nnn.toNat + (s.v[(0 : Reg)]).toNat then
      some .illegalJumpTarget
    else none
  | .drw _ _ n => if 1 ≤ n.val ∧ 0xFFF < s.i.toNat + n.val - 1 then some .addressOutOfRange else none
  | .ldBVx _ => if 0xFFF < s.i.toNat + 2 then some .addressOutOfRange else none
  | .ldMemVx x | .ldVxMem x => if 0xFFF < s.i.toNat + x.val then some .addressOutOfRange else none
  | .cls | .sys _ | .seImm _ _ | .sneImm _ _ | .seReg _ _ | .ldImm _ _ | .addImm _ _ | .ldReg _ _ | .orReg _ _
  | .andReg _ _ | .xorReg _ _ | .addReg _ _ | .subReg _ _ | .shr _ _ | .subn _ _ | .shl _ _ | .sneReg _ _ | .ldI _
  | .rnd _ _ | .skp _ | .sknp _ | .ldVxDT _ | .ldVxK _ | .ldDTVx _ | .ldSTVx _ | .addIVx _ | .ldFVx _ => none

/-- A 1 bit of the sprite of `DRW Vx, Vy, n` at `s` falls on the pixel in column `px`, row `py` (44_display.md R161). -/
def SpriteHits (s : State) (x y : Reg) (n : Rows) (px : Fin 64) (py : Fin 32) : Prop :=
  ∃ r c : Nat, r < n.val ∧ c < 8 ∧ (Memory.get s.mem (s.i.toNat + r)).getLsbD (7 - c) = true ∧
    px.val = ((s.v[x]).toNat % 64 + c) % 64 ∧ py.val = ((s.v[y]).toNat % 32 + r) % 32

/-- The same machine state beside another host: other inputs, other ticks to come (10_state.md R42). -/
def State.withHost (s : State) (script : List HostTurn) (turn : Nat) : State := { s with script := script, turn := turn }

/-- An outcome whose next state, if any, stands beside another host. -/
def outcomeWithHost (o : Host.Outcome State Fault Refusal) (script : List HostTurn) (turn : Nat) :
    Host.Outcome State Fault Refusal :=
  match o with
  | .next t => .next (t.withHost script turn)
  | .fault reason => .fault reason
  | .refused reason => .refused reason

/-- The instructions that read an input port (10_state.md R39, R40). -/
def readsInputs (i : Instr) : Bool :=
  match i with
  | .rnd _ _ | .skp _ | .sknp _ | .ldVxK _ => true
  | .cls | .ret | .sys _ | .jp _ | .call _ | .seImm _ _ | .sneImm _ _ | .seReg _ _ | .ldImm _ _ | .addImm _ _
  | .ldReg _ _ | .orReg _ _ | .andReg _ _ | .xorReg _ _ | .addReg _ _ | .subReg _ _ | .shr _ _ | .subn _ _
  | .shl _ _ | .sneReg _ _ | .ldI _ | .jpV0 _ | .drw _ _ _ | .ldVxDT _ | .ldDTVx _ | .ldSTVx _ | .addIVx _
  | .ldFVx _ | .ldBVx _ | .ldMemVx _ | .ldVxMem _ => false

end Sys2Proof.Machine
end

