-- ==== Sys2Proof/Certificates/Slice0/Obligations.lean ====
section
/-! DEFINITION. The statements for the provers. A clause that rests on a decision the spec marks as its own (92_eei_decisions.md
D<n>) or on a model choice (log <n>) says so; such a statement's basis is `derived`. -/

open Sys2Proof Sys2Proof.Machine

/-! ## Encoding -/

/-- Decoding the word of a well-formed instruction gives it back, with every operand (30_encoding.md sections 2 and 3; the
sub-opcode values are decision D6, log 9). -/
def Obligations.DecodeOfEncode : Prop :=
  ∀ i : Instr, i.wellFormed = true → decodeWord (encode i) = .ok i

/-- Every word that decodes is the encoding of the well-formed instruction it decodes to: no word has two meanings
(30_encoding.md sections 2 to 4; sub-opcode values decision D6, log 9). That no bit is dropped, the ignored NNN of SYS and Y
of the shifts among them, is the model's choice (log 35). -/
def Obligations.EncodeOfDecode : Prop :=
  ∀ (w : Word) (i : Instr), decodeWord w = .ok i → i.wellFormed = true ∧ encode i = w

/-- The words that decode to nothing are exactly those listed (30_encoding.md section 4; the strict low nibbles and the
sub-opcode values are decision D6, log 9). -/
def Obligations.UnrecognizedWordsExactly : Prop :=
  ∀ w : Word, decodeWord w = .error .unrecognizedOpcode ↔
    (w.toNat / 0x1000 = 0x5 ∧ w.toNat % 0x10 ≠ 0x0) ∨
    (w.toNat / 0x1000 = 0x8 ∧ w.toNat % 0x10 ∈ [0x8, 0x9, 0xA, 0xB, 0xC, 0xD, 0xF]) ∨
    (w.toNat / 0x1000 = 0x9 ∧ w.toNat % 0x10 ≠ 0x0) ∨
    (w.toNat / 0x1000 = 0xE ∧ w.toNat % 0x100 ∉ [0x9E, 0xA1]) ∨
    (w.toNat / 0x1000 = 0xF ∧ w.toNat % 0x100 ∉ [0x07, 0x0A, 0x15, 0x18, 0x1E, 0x29, 0x33, 0x55, 0x65])

/-- Words the spec writes out in the examples of files 40 to 46 and in 95_test_vectors.md, one or more of every leading
nibble, decode to what it says they are (the sub-opcodes of 5120, 9120, E49E, F30A and F265 are decision D6, log 9). -/
def Obligations.WrittenWordsDecode : Prop :=
  decodeWord 0x00E0 = .ok .cls ∧ decodeWord 0x00EE = .ok .ret ∧ decodeWord 0x0123 = .ok (.sys 0x123) ∧
  decodeWord 0x1234 = .ok (.jp 0x234) ∧ decodeWord 0x2210 = .ok (.call 0x210) ∧
  decodeWord 0x332A = .ok (.seImm 3 0x2A) ∧ decodeWord 0x432A = .ok (.sneImm 3 0x2A) ∧
  decodeWord 0x5120 = .ok (.seReg 1 2) ∧ decodeWord 0x6005 = .ok (.ldImm 0 0x05) ∧
  decodeWord 0x7003 = .ok (.addImm 0 0x03) ∧ decodeWord 0x8124 = .ok (.addReg 1 2) ∧
  decodeWord 0x9120 = .ok (.sneReg 1 2) ∧ decodeWord 0xA2F0 = .ok (.ldI 0x2F0) ∧
  decodeWord 0xB300 = .ok (.jpV0 0x300) ∧ decodeWord 0xC10F = .ok (.rnd 1 0x0F) ∧ decodeWord 0xD125 = .ok (.drw 1 2 5) ∧
  decodeWord 0xE49E = .ok (.skp 4) ∧ decodeWord 0xF30A = .ok (.ldVxK 3) ∧ decodeWord 0xF265 = .ok (.ldVxMem 2) ∧
  decodeWord 0xFFFF = .error .unrecognizedOpcode

/-! ## The step -/

/-- When the core is not waiting and the bytes at `pc` decode to `i`, a step is `i` executed with `booted` set and the
outcome port at Continue, and then the host's turn (50_engine_and_interface.md section 3; the host's turn is log 1 and
log 2). -/
def Obligations.StepRunsDecodedInstruction : Prop :=
  ∀ (s : State) (i : Instr), s.waitValid = false → s.pc.toNat ≤ 0xFFE →
    decodeWord (Memory.get s.mem s.pc.toNat ++ Memory.get s.mem (s.pc.toNat + 1)) = .ok i →
    (∀ t, exec i { s with booted := true, outcome := some .continued } = .next t → step s = .next t.hostMoves) ∧
    (∀ f, exec i { s with booted := true, outcome := some .continued } = .fault f → step s = .fault f)

/-- Fetch (R206): big-endian at any `pc` up to 0xFFE, AddressOutOfRange from 0xFFF on, which the step reports. -/
def Obligations.FetchReadsBigEndianWord : Prop :=
  ∀ s : State,
    (s.pc.toNat ≤ 0xFFE → ∃ w : Word, s.fetch = .ok w ∧
      w.toNat = (Memory.get s.mem s.pc.toNat).toNat * 256 + (Memory.get s.mem (s.pc.toNat + 1)).toNat) ∧
    (0xFFF ≤ s.pc.toNat → s.fetch = .error .addressOutOfRange ∧
      (s.waitValid = false → step s = .fault .addressOutOfRange))

/-- A fetched word in no row of the opcode map: the step reports UnrecognizedOpcode, and afterwards `pc` is still at the
word and every register is as it was (60_exceptions.md section 1; which words those are is UnrecognizedWordsExactly). -/
def Obligations.UnrecognizedWordFaults : Prop :=
  ∀ s : State, s.waitValid = false → s.pc.toNat ≤ 0xFFE →
    decodeWord (Memory.get s.mem s.pc.toNat ++ Memory.get s.mem (s.pc.toNat + 1)) = .error .unrecognizedOpcode →
    step s = .fault .unrecognizedOpcode ∧ s.stepOn.pc = s.pc ∧ s.stepOn.i = s.i ∧ KeepsRegsBut [] s s.stepOn

/-- A step that completes has set `booted`, reports Continue or AwaitingKey and never Halted, and reports AwaitingKey
exactly when the core now waits (50_engine_and_interface.md section 4; decisions D17, D20, D25). -/
def Obligations.StepOutcomeReported : Prop :=
  ∀ s t : State, step s = .next t →
    t.booted = true ∧ (t.outcome = some .continued ∨ t.outcome = some .awaitingKey) ∧
    (t.outcome = some .awaitingKey ↔ t.waitValid = true)

/-- Whatever the table of faults gives for an instruction and a state is what executing it reports, and where it gives none
the instruction completes; nothing is refused (60_exceptions.md sections 2 and 3; decisions D11, log 14, D12, log 15, D15,
log 18, and D23, log 26). -/
def Obligations.FaultTableExact : Prop :=
  (∀ (i : Instr) (s : State), match faultTable i s with
    | some f => exec i s = .fault f
    | none => ∃ t, exec i s = .next t) ∧
  ∀ (s : State) (r : Refusal), step s ≠ .refused r

/-- A faulting step leaves every part of the state as it was, except `booted` and the outcome port that reports the reason
(R236); going on after it, the host's turn may only tick the timers and move the host's side (log 1, log 3). -/
def Obligations.FaultChangesNothing : Prop :=
  ∀ (s : State) (f : Fault), step s = .fault f →
    s.stepOn = (s.afterFault f).hostMoves ∧
    KeepsAllBut [.booted, .outcome] s (s.afterFault f) ∧ (s.afterFault f).booted = true ∧
    (s.afterFault f).outcome = some (.fault f) ∧
    KeepsAllBut [.booted, .outcome, .dt, .st, .host] s s.stepOn

/-- Stepping again after a fault reports the same fault again, whatever ticks fall between (60_exceptions.md R238, a derived
rule; decision D22, log 25; going on by `stepOn` is log 3, the host's ticks log 1 and log 2). -/
def Obligations.FaultRepeats : Prop :=
  ∀ (s : State) (f : Fault), step s = .fault f → step s.stepOn = .fault f

/-! ## Reset, the invariant, the transactions -/

/-- The state after reset (70_reset_and_hazards.md section 1; C1, decisions D2, D3, D4, D5, D17, D25, log 5 to log 8,
log 20, log 27, log 33), and the `reset` transaction gives it from any state (log 34). -/
def Obligations.ResetValues : Prop :=
  (∀ r : Reg, State.reset.v[r] = 0x00) ∧ State.reset.i = 0x0000 ∧ State.reset.pc = 0x0200 ∧ State.reset.sp.val = 0 ∧
  (∀ k : Fin 16, State.reset.stack[k] = 0x0000) ∧ State.reset.dt = 0x00 ∧ State.reset.st = 0x00 ∧
  (∀ (x : Fin 64) (y : Fin 32), State.reset.isSet x y = false) ∧
  (List.range 80).map (fun a => Memory.get State.reset.mem a) =
    [0xF0, 0x90, 0x90, 0x90, 0xF0] ++ [0x20, 0x60, 0x20, 0x20, 0x70] ++ [0xF0, 0x10, 0xF0, 0x80, 0xF0] ++
    [0xF0, 0x10, 0xF0, 0x10, 0xF0] ++ [0x90, 0x90, 0xF0, 0x10, 0x10] ++ [0xF0, 0x80, 0xF0, 0x10, 0xF0] ++
    [0xF0, 0x80, 0xF0, 0x90, 0xF0] ++ [0xF0, 0x10, 0x20, 0x40, 0x40] ++ [0xF0, 0x90, 0xF0, 0x90, 0xF0] ++
    [0xF0, 0x90, 0xF0, 0x10, 0xF0] ++ [0xF0, 0x90, 0xF0, 0x90, 0x90] ++ [0xE0, 0x90, 0xE0, 0x90, 0xE0] ++
    [0xF0, 0x80, 0x80, 0x80, 0xF0] ++ [0xE0, 0x90, 0x90, 0x90, 0xE0] ++ [0xF0, 0x80, 0xF0, 0x80, 0xF0] ++
    [0xF0, 0x80, 0xF0, 0x80, 0x80] ∧
  (∀ a : Nat, 0x050 ≤ a → Memory.get State.reset.mem a = 0x00) ∧
  State.reset.waitValid = false ∧ State.reset.waitX = 0 ∧ State.reset.keyPrev = 0x0000 ∧ State.reset.booted = false ∧
  State.reset.outcome = none ∧ State.reset.soundOn = false ∧ ∀ s : State, KeepsAllBut [.host] State.reset s.restart

/-- The invariant holds after reset (70_reset_and_hazards.md section 1). Its clause on canonical memory (log 8) and its
clause that no outcome stands before the first step (log 5) are the model's. -/
def Obligations.InvariantAtReset : Prop := State.reset.Inv

/-- Every step that completes keeps the invariant: memory canonical, `pc` in 0x200 to 0x1002, return addresses in 0x202 to
0x1000, the outcome port and the wait in agreement (10_state.md R28 and R32, derived rules). That memory is canonical (log 8)
and that an outcome stands exactly when `booted` is set (log 5) are clauses of the model. -/
def Obligations.InvariantKept : Prop :=
  ∀ s t : State, s.Inv → step s = .next t → t.Inv

/-- The other transactions keep the invariant too: going on after a fault, `reset`, `tick`, and `load` (log 3,
log 34, and decision D25, log 27; the model's own clauses of the invariant are log 8 and log 5). -/
def Obligations.InvariantKeptByTransactions : Prop :=
  ∀ s : State, s.Inv → s.stepOn.Inv ∧ s.restart.Inv ∧ s.tick.Inv ∧ ∀ bytes : List Byte, (s.load bytes).1.Inv

/-- `tick` (R215): each timer that is not 0 goes down by 1, one at 0 stays, nothing else changes. -/
def Obligations.TickDecrements : Prop :=
  ∀ s : State,
    (s.dt ≠ 0 → s.tick.dt.toNat + 1 = s.dt.toNat) ∧ (s.dt = 0 → s.tick.dt = 0) ∧
    (s.st ≠ 0 → s.tick.st.toNat + 1 = s.st.toNat) ∧ (s.st = 0 → s.tick.st = 0) ∧
    KeepsAllBut [.dt, .st] s s.tick

/-- The host's turn after a step is its ticks and nothing else: the timers read as after that many `tick` transactions, for
whatever number of ticks the turn has (50_engine_and_interface.md sections 1 and 5; the turn is log 1 and log 2). -/
def Obligations.HostTurnOnlyTicks : Prop :=
  ∀ s : State,
    s.hostMoves.dt = (State.tick^[s.hostTurn.ticks] s).dt ∧ s.hostMoves.st = (State.tick^[s.hostTurn.ticks] s).st ∧
    KeepsAllBut [.dt, .st, .host] s s.hostMoves

/-- `load` before the first step: an image that fits is written at 0x200 upward and nothing else changes; after the first
step it is refused (50_engine_and_interface.md section 2; decision D25, log 27). -/
def Obligations.LoadPlacesImage : Prop :=
  ∀ (s : State) (bytes : List Byte),
    (s.booted = false → bytes.length ≤ 3584 →
      (s.load bytes).2 = .ok ∧ KeepsAllBut [.memory] s (s.load bytes).1 ∧
      (∀ k : Nat, k < bytes.length → some (Memory.get (s.load bytes).1.mem (0x200 + k)) = bytes[k]?) ∧
      KeepsBytesOutside 0x200 bytes.length s (s.load bytes).1) ∧
    (s.booted = true → s.load bytes = (s, .refused .loadAfterFirstStep))

/-- RomTooLarge (R237): raised by `load`, only for an image longer than 3584 bytes, with nothing written; never by a step. -/
def Obligations.RomTooLargeOnlyByLoad : Prop :=
  (∀ (s : State) (bytes : List Byte), s.booted = false → 3584 < bytes.length →
    s.load bytes = (s, .fault .romTooLarge)) ∧
  (∀ (s : State) (bytes : List Byte) (f : Fault), (s.load bytes).2 = .fault f →
    f = .romTooLarge ∧ 3584 < bytes.length ∧ (s.load bytes).1 = s) ∧
  ∀ s : State, step s ≠ .fault .romTooLarge

/-- Memories in the canonical form that read alike at every address are the same list, so that equal states are equal data
(20_memory.md section 1; the form is the model's, log 8). -/
def Obligations.EqualMemoriesAreEqualData : Prop :=
  ∀ m m' : Memory, Memory.wf m = true → Memory.wf m' = true → (∀ a : Nat, Memory.get m a = Memory.get m' a) → m = m'

/-! ## Control transfer -/

/-- `SYS nnn` (R110): every form is a no-operation that advances `pc`. -/
def Obligations.SysAdvancesOnly : Prop :=
  ∀ (nnn : Addr12) (s : State), ∃ t, exec (.sys nnn) s = .next t ∧ t.pc = s.pc + 2 ∧ KeepsAllBut [.pc] s t

/-- `JP nnn` (R112): to the target when it is 0x200 or more, else IllegalJumpTarget. -/
def Obligations.JumpChecksTarget : Prop :=
  ∀ (nnn : Addr12) (s : State),
    (0x200 ≤ nnn.toNat → ∃ t, exec (.jp nnn) s = .next t ∧ t.pc.toNat = nnn.toNat ∧ KeepsAllBut [.pc] s t) ∧
    (nnn.toNat < 0x200 → exec (.jp nnn) s = .fault .illegalJumpTarget)

/-- `CALL nnn`: pushes the address after the call and jumps; IllegalJumpTarget is tested before StackOverflow
(40_control_transfer.md; decisions D5, D12, log 6, log 15). -/
def Obligations.CallPushesReturnAddress : Prop :=
  ∀ (nnn : Addr12) (s : State),
    (0x200 ≤ nnn.toNat → s.sp.val < 16 → ∃ t, exec (.call nnn) s = .next t ∧ t.pc.toNat = nnn.toNat ∧
      t.sp.val = s.sp.val + 1 ∧
      (∀ k : Fin 16, t.stack[k] = if k.val = s.sp.val then s.pc + 2 else s.stack[k]) ∧
      KeepsAllBut [.pc, .stack] s t) ∧
    (nnn.toNat < 0x200 → exec (.call nnn) s = .fault .illegalJumpTarget) ∧
    (0x200 ≤ nnn.toNat → s.sp.val = 16 → exec (.call nnn) s = .fault .stackOverflow)

/-- `RET` with an entry on the stack: `pc` is the newest entry itself, not range-checked, and no entry changes
(40_control_transfer.md; decisions D5, D34, log 6, log 32). -/
def Obligations.ReturnPopsNewestEntry : Prop :=
  ∀ s : State, 1 ≤ s.sp.val → ∃ t, exec .ret s = .next t ∧ t.sp.val + 1 = s.sp.val ∧
    (∀ k : Fin 16, k.val + 1 = s.sp.val → t.pc = s.stack[k]) ∧
    (∀ k : Fin 16, t.stack[k] = s.stack[k]) ∧ KeepsAllBut [.pc, .stack] s t

/-- `RET` on an empty stack (R235): StackUnderflow, and `pc` is not altered. -/
def Obligations.ReturnOnEmptyStackFaults : Prop :=
  ∀ s : State, s.sp.val = 0 → exec .ret s = .fault .stackUnderflow ∧
    ∀ f : Fault, (s.afterFault f).pc = s.pc ∧ (s.afterFault f).sp = s.sp

/-- `JP V0, nnn`: the untruncated sum is the target and must lie in 0x200 to 0xFFF (40_control_transfer.md; decision D11,
log 14). -/
def Obligations.JumpOffsetChecksSum : Prop :=
  ∀ (nnn : Addr12) (s : State),
    (0x200 ≤ nnn.toNat + (s.v[(0 : Reg)]).toNat → nnn.toNat + (s.v[(0 : Reg)]).toNat ≤ 0xFFF →
      ∃ t, exec (.jpV0 nnn) s = .next t ∧ t.pc.toNat = nnn.toNat + (s.v[(0 : Reg)]).toNat ∧ KeepsAllBut [.pc] s t) ∧
    (nnn.toNat + (s.v[(0 : Reg)]).toNat < 0x200 ∨ 0xFFF < nnn.toNat + (s.v[(0 : Reg)]).toNat →
      exec (.jpV0 nnn) s = .fault .illegalJumpTarget)

/-- Calls that fit on the stack followed by as many returns come back to the instruction after the first call, with the
stack as deep as it was and its valid entries and everything else untouched (40_control_transfer.md, the round-trip
property; 95_test_vectors.md S4; the stack's form is decision D5, log 6, and that a return is unchecked D34, log 32). -/
def Obligations.CallsThenReturnsRoundTrip : Prop :=
  ∀ (s : State) (targets : List Addr12), targets ≠ [] → (∀ n ∈ targets, 0x200 ≤ n.toNat) →
    s.sp.val + targets.length ≤ 16 →
    ∃ t, execAll (targets.map (fun n => Instr.call n) ++ List.replicate targets.length Instr.ret) s = .next t ∧
      t.pc = s.pc + 2 ∧ t.sp = s.sp ∧ (∀ k : Fin 16, k.val < s.sp.val → t.stack[k] = s.stack[k]) ∧
      KeepsAllBut [.pc, .stack] s t

/-! ## Skips -/

/-- The four register skips (R120 to R123): 4 when the condition holds, else 2, and nothing else changes. -/
def Obligations.SkipsAdvanceByCondition : Prop :=
  ∀ (x y : Reg) (kk : Byte) (s : State),
    (∃ t, exec (.seImm x kk) s = .next t ∧ t.pc = (if s.v[x] = kk then s.pc + 4 else s.pc + 2) ∧
      KeepsAllBut [.pc] s t) ∧
    (∃ t, exec (.sneImm x kk) s = .next t ∧ t.pc = (if s.v[x] ≠ kk then s.pc + 4 else s.pc + 2) ∧
      KeepsAllBut [.pc] s t) ∧
    (∃ t, exec (.seReg x y) s = .next t ∧ t.pc = (if s.v[x] = s.v[y] then s.pc + 4 else s.pc + 2) ∧
      KeepsAllBut [.pc] s t) ∧
    (∃ t, exec (.sneReg x y) s = .next t ∧ t.pc = (if s.v[x] ≠ s.v[y] then s.pc + 4 else s.pc + 2) ∧
      KeepsAllBut [.pc] s t)

/-- The two key skips take opposite branches: the key whose index is the whole of `V[X]` is down at this step, or there is
no such key (45_keypad.md; decision D16, log 19). -/
def Obligations.KeySkipsTestOneKey : Prop :=
  ∀ (x : Reg) (s : State),
    (∃ t, exec (.skp x) s = .next t ∧ KeepsAllBut [.pc] s t ∧
      ((s.v[x]).toNat ≤ 15 → s.keys.getLsbD (s.v[x]).toNat = true → t.pc = s.pc + 4) ∧
      ((s.v[x]).toNat ≤ 15 → s.keys.getLsbD (s.v[x]).toNat = false → t.pc = s.pc + 2) ∧
      (15 < (s.v[x]).toNat → t.pc = s.pc + 2)) ∧
    (∃ t, exec (.sknp x) s = .next t ∧ KeepsAllBut [.pc] s t ∧
      ((s.v[x]).toNat ≤ 15 → s.keys.getLsbD (s.v[x]).toNat = true → t.pc = s.pc + 2) ∧
      ((s.v[x]).toNat ≤ 15 → s.keys.getLsbD (s.v[x]).toNat = false → t.pc = s.pc + 4) ∧
      (15 < (s.v[x]).toNat → t.pc = s.pc + 4))

/-! ## Immediate loads, immediate add, random -/

/-- `LD Vx, kk` (R130). -/
def Obligations.LoadImmediate : Prop :=
  ∀ (x : Reg) (kk : Byte) (s : State), ∃ t, exec (.ldImm x kk) s = .next t ∧ t.v[x] = kk ∧ KeepsRegsBut [x] s t ∧
    t.pc = s.pc + 2 ∧ KeepsAllBut [.regs, .pc] s t

/-- `ADD Vx, kk` (R131): the sum modulo 256, and no flag, so that VF too keeps its value unless it is the destination. -/
def Obligations.AddImmediateWraps : Prop :=
  ∀ (x : Reg) (kk : Byte) (s : State), ∃ t, exec (.addImm x kk) s = .next t ∧
    (t.v[x]).toNat = ((s.v[x]).toNat + kk.toNat) % 256 ∧ KeepsRegsBut [x] s t ∧
    t.pc = s.pc + 2 ∧ KeepsAllBut [.regs, .pc] s t

/-- `LD I, nnn` (R132). -/
def Obligations.LoadIndexZeroExtends : Prop :=
  ∀ (nnn : Addr12) (s : State), ∃ t, exec (.ldI nnn) s = .next t ∧ t.i.toNat = nnn.toNat ∧
    t.pc = s.pc + 2 ∧ KeepsAllBut [.index, .pc] s t

/-- `RND Vx, kk` (R133): the random port of this step masked, whatever its value. -/
def Obligations.RandomIsMaskedPort : Prop :=
  ∀ (x : Reg) (kk : Byte) (s : State), ∃ t, exec (.rnd x kk) s = .next t ∧
    (∀ b : Nat, (t.v[x]).getLsbD b = (s.rnd.getLsbD b && kk.getLsbD b)) ∧ KeepsRegsBut [x] s t ∧
    t.pc = s.pc + 2 ∧ KeepsAllBut [.regs, .pc] s t

/-! ## The ALU -/

/-- 8XY0 to 8XY3: assign, or, and, xor, bit by bit, and no flag (43_alu.md; decision D8, log 11). -/
def Obligations.AssignAndLogicLeaveFlag : Prop :=
  ∀ (x y : Reg) (s : State),
    (∃ t, exec (.ldReg x y) s = .next t ∧ t.v[x] = s.v[y] ∧ KeepsRegsBut [x] s t ∧
      t.pc = s.pc + 2 ∧ KeepsAllBut [.regs, .pc] s t) ∧
    (∃ t, exec (.orReg x y) s = .next t ∧
      (∀ b : Nat, (t.v[x]).getLsbD b = ((s.v[x]).getLsbD b || (s.v[y]).getLsbD b)) ∧ KeepsRegsBut [x] s t ∧
      t.pc = s.pc + 2 ∧ KeepsAllBut [.regs, .pc] s t) ∧
    (∃ t, exec (.andReg x y) s = .next t ∧
      (∀ b : Nat, (t.v[x]).getLsbD b = ((s.v[x]).getLsbD b && (s.v[y]).getLsbD b)) ∧ KeepsRegsBut [x] s t ∧
      t.pc = s.pc + 2 ∧ KeepsAllBut [.regs, .pc] s t) ∧
    (∃ t, exec (.xorReg x y) s = .next t ∧
      (∀ b : Nat, (t.v[x]).getLsbD b = xor ((s.v[x]).getLsbD b) ((s.v[y]).getLsbD b)) ∧ KeepsRegsBut [x] s t ∧
      t.pc = s.pc + 2 ∧ KeepsAllBut [.regs, .pc] s t)

/-- `ADD Vx, Vy` (R145): VF is the carry, also when X or Y is VF; `V[X]` is the sum modulo 256 unless the flag overwrites
it. -/
def Obligations.AddSetsCarry : Prop :=
  ∀ (x y : Reg) (s : State), ∃ t, exec (.addReg x y) s = .next t ∧
    (t.v[VF]).toNat = (if 255 < (s.v[x]).toNat + (s.v[y]).toNat then 1 else 0) ∧
    (x ≠ VF → (t.v[x]).toNat = ((s.v[x]).toNat + (s.v[y]).toNat) % 256) ∧
    KeepsRegsBut [x, VF] s t ∧ t.pc = s.pc + 2 ∧ KeepsAllBut [.regs, .pc] s t

/-- `SUB Vx, Vy` and `SUBN Vx, Vy` (R146, R148): VF is the not-borrow; the difference is `a - b + 256` on a borrow. -/
def Obligations.SubtractionsSetNotBorrow : Prop :=
  ∀ (x y : Reg) (s : State),
    (∃ t, exec (.subReg x y) s = .next t ∧
      (t.v[VF]).toNat = (if (s.v[y]).toNat ≤ (s.v[x]).toNat then 1 else 0) ∧
      (x ≠ VF → (t.v[x]).toNat = (if (s.v[y]).toNat ≤ (s.v[x]).toNat then (s.v[x]).toNat - (s.v[y]).toNat
        else (s.v[x]).toNat + 256 - (s.v[y]).toNat)) ∧
      KeepsRegsBut [x, VF] s t ∧ t.pc = s.pc + 2 ∧ KeepsAllBut [.regs, .pc] s t) ∧
    (∃ t, exec (.subn x y) s = .next t ∧
      (t.v[VF]).toNat = (if (s.v[x]).toNat ≤ (s.v[y]).toNat then 1 else 0) ∧
      (x ≠ VF → (t.v[x]).toNat = (if (s.v[x]).toNat ≤ (s.v[y]).toNat then (s.v[y]).toNat - (s.v[x]).toNat
        else (s.v[y]).toNat + 256 - (s.v[x]).toNat)) ∧
      KeepsRegsBut [x, VF] s t ∧ t.pc = s.pc + 2 ∧ KeepsAllBut [.regs, .pc] s t)

/-- `SHR Vx` and `SHL Vx`: `V[X]` shifted by one in place, `V[Y]` neither read nor written, VF the bit shifted out
(43_alu.md; decision D7, log 10). -/
def Obligations.ShiftsByOneInPlace : Prop :=
  ∀ (x y : Reg) (s : State),
    (∃ t, exec (.shr x y) s = .next t ∧ (t.v[VF]).toNat = (s.v[x]).toNat % 2 ∧
      (x ≠ VF → (t.v[x]).toNat = (s.v[x]).toNat / 2) ∧
      KeepsRegsBut [x, VF] s t ∧ t.pc = s.pc + 2 ∧ KeepsAllBut [.regs, .pc] s t) ∧
    (∃ t, exec (.shl x y) s = .next t ∧ (t.v[VF]).toNat = (s.v[x]).toNat / 128 ∧
      (x ≠ VF → (t.v[x]).toNat = 2 * (s.v[x]).toNat % 256) ∧
      KeepsRegsBut [x, VF] s t ∧ t.pc = s.pc + 2 ∧ KeepsAllBut [.regs, .pc] s t)

/-! ## Whole-machine rules -/

/-- Whatever instruction writes VF as a flag leaves 0 or 1 in it, in all 8 bits, also when VF is its destination
(10_state.md section 3; 43_alu.md Laws of the ALU). -/
def Obligations.FlagIsZeroOrOne : Prop :=
  ∀ (i : Instr) (s t : State), writesFlag i = true → exec i s = .next t → t.v[VF] = 0x00 ∨ t.v[VF] = 0x01

/-- An instruction changes no general register but its destinations and, where it writes a flag, VF (10_state.md sections 2
and 3; decisions D8, D10, log 11, log 13). -/
def Obligations.OnlyDestinationsChange : Prop :=
  ∀ (i : Instr) (s t : State) (r : Reg), exec i s = .next t → r ∉ destinations i →
    (writesFlag i = true → r ≠ VF) → t.v[r] = s.v[r]

/-- An instruction changes no byte of memory outside the bytes it stores to: three at `I` for FX33, `X + 1` at `I` for FX55,
none for any other (10_state.md section 9; 20_memory.md section 1). -/
def Obligations.OnlyStoresChangeMemory : Prop :=
  ∀ (i : Instr) (s t : State), exec i s = .next t →
    KeepsBytesOutside (storedBytes i s).1 (storedBytes i s).2 s t

/-- Which instruction may write each other part of the state: the stack CALL and RET, `DT` FX15, `ST` FX18, the pixels CLS and
DRW, the wait registers and the outcome port FX0A, `I` three of them; `booted` and the host's side none (10_state.md
sections 4 to 11, 50_engine_and_interface.md section 3). FX55 and FX65 leaving `I` is decision D9, log 12, the wait registers
D17, log 20; the outcome port as a field is log 5, the host's side log 1. -/
def Obligations.EachPartHasItsWriters : Prop :=
  ∀ (i : Instr) (s t : State), exec i s = .next t →
    ((∀ n, i ≠ .call n) → i ≠ .ret → SamePart .stack s t) ∧
    ((∀ x, i ≠ .ldDTVx x) → t.dt = s.dt) ∧ ((∀ x, i ≠ .ldSTVx x) → t.st = s.st) ∧
    (i ≠ .cls → (∀ x y n, i ≠ .drw x y n) → SamePart .pixels s t) ∧
    ((∀ x, i ≠ .ldVxK x) → SamePart .wait s t ∧ t.outcome = s.outcome) ∧
    ((∀ n, i ≠ .ldI n) → (∀ x, i ≠ .addIVx x) → (∀ x, i ≠ .ldFVx x) → t.i = s.i) ∧
    SamePart .booted s t ∧ SamePart .host s t

/-- An instruction that reads no input port does the same beside any host: neither `keys` nor `rnd` nor ticks to come enter
its result or its fault (10_state.md section 11; decision D26, log 1). -/
def Obligations.InputsEnterOnlyThroughPorts : Prop :=
  ∀ (i : Instr) (s : State) (script : List HostTurn) (turn : Nat), readsInputs i = false →
    exec i (s.withHost script turn) = outcomeWithHost (exec i s) script turn

/-- An instruction that stores nothing below 0x200 leaves the font region intact (70_reset_and_hazards.md section 3;
decision D19, log 21). -/
def Obligations.FontIntactWithoutLowStores : Prop :=
  ∀ (i : Instr) (s t : State), FontIntact s → exec i s = .next t →
    ((storedBytes i s).2 = 0 ∨ 0x200 ≤ (storedBytes i s).1) → FontIntact t

/-! ## Display -/

/-- `CLS` (R160): every pixel unset, nothing else but `pc`. -/
def Obligations.ClearUnsetsEveryPixel : Prop :=
  ∀ s : State, ∃ t, exec .cls s = .next t ∧ (∀ (x : Fin 64) (y : Fin 32), t.isSet x y = false) ∧
    t.pc = s.pc + 2 ∧ KeepsAllBut [.pixels, .pc] s t

/-- `DRW Vx, Vy, n`: exactly the pixels the sprite's 1 bits fall on are inverted, wrapping at both edges, and VF tells
whether one of them was set; also for N = 0 and for X or Y = VF (44_display.md; decisions D13, D14, D15, log 16 to
log 18). -/
def Obligations.DrawInvertsSpritePixels : Prop :=
  ∀ (x y : Reg) (n : Rows) (s : State), (n.val = 0 ∨ s.i.toNat + n.val ≤ 0x1000) →
    ∃ t, exec (.drw x y n) s = .next t ∧
      (∀ (px : Fin 64) (py : Fin 32),
        (SpriteHits s x y n px py → t.isSet px py = !s.isSet px py) ∧
        (¬SpriteHits s x y n px py → t.isSet px py = s.isSet px py)) ∧
      ((∃ px py, SpriteHits s x y n px py ∧ s.isSet px py = true) → t.v[VF] = 0x01) ∧
      ((¬∃ px py, SpriteHits s x y n px py ∧ s.isSet px py = true) → t.v[VF] = 0x00) ∧
      KeepsRegsBut [VF] s t ∧ t.pc = s.pc + 2 ∧ KeepsAllBut [.regs, .pixels, .pc] s t

/-- Drawing the same sprite a second time at the same location, named by the same or by other registers, restores every
pixel, and VF then tells whether some 1 bit fell on a pixel that was unset at first. Between the draws anything may change
but the pixels, `I` and memory, so that a register the first draw's flag overwrote may be loaded again (44_display.md,
properties (a) and (b); (b) is a derived rule; decisions D13, D14, D15, log 16 to log 18). -/
def Obligations.DrawTwiceRestores : Prop :=
  ∀ (x y x' y' : Reg) (n : Rows) (s t u : State), exec (.drw x y n) s = .next t →
    SamePart .pixels t u → SamePart .index t u → SamePart .memory t u →
    (u.v[x']).toNat % 64 = (s.v[x]).toNat % 64 → (u.v[y']).toNat % 32 = (s.v[y]).toNat % 32 →
    ∃ w, exec (.drw x' y' n) u = .next w ∧ SamePart .pixels s w ∧
      (w.v[VF] = 0x01 ↔ ∃ px py, SpriteHits s x y n px py ∧ s.isSet px py = false)

/-! ## Keypad -/

/-- `LD Vx, K` on entry: the wait is entered with X and the present keys, `pc` and the registers stay (45_keypad.md;
decision D17, log 20). -/
def Obligations.KeyWaitEntered : Prop :=
  ∀ (x : Reg) (s : State), ∃ t, exec (.ldVxK x) s = .next t ∧ t.waitValid = true ∧ t.waitX = x ∧ t.keyPrev = s.keys ∧
    t.outcome = some .awaitingKey ∧ KeepsAllBut [.wait, .outcome] s t

/-- The step while waiting: with no key newly down it goes on waiting and follows the keys; with one, the lowest such key
goes to the register and the wait ends. It fetches nothing, cannot fault and leaves the timers to the ticks of the host's
turn (45_keypad.md; 50_engine_and_interface.md sections 3 and 5; decision D17, log 20; the host's turn is log 1 and log 2). -/
def Obligations.KeyWaitStep : Prop :=
  ∀ s : State, s.waitValid = true →
    ((∀ k : Fin 16, s.keys.getLsbD k = true → s.keyPrev.getLsbD k = true) →
      ∃ t, step s = .next t ∧ t.waitValid = true ∧ t.waitX = s.waitX ∧ t.keyPrev = s.keys ∧
        t.outcome = some .awaitingKey ∧ t.booted = true ∧
        t.dt = (State.tick^[s.hostTurn.ticks] s).dt ∧ t.st = (State.tick^[s.hostTurn.ticks] s).st ∧
        KeepsAllBut [.wait, .outcome, .booted, .dt, .st, .host] s t) ∧
    (∀ k : Fin 16, s.keys.getLsbD k = true → s.keyPrev.getLsbD k = false →
      (∀ j : Fin 16, j < k → s.keys.getLsbD j = true → s.keyPrev.getLsbD j = true) →
      ∃ t, step s = .next t ∧ (t.v[s.waitX]).toNat = k.val ∧ KeepsRegsBut [s.waitX] s t ∧ t.waitValid = false ∧
        t.pc = s.pc + 2 ∧ t.outcome = some .continued ∧ t.booted = true ∧
        t.dt = (State.tick^[s.hostTurn.ticks] s).dt ∧ t.st = (State.tick^[s.hostTurn.ticks] s).st ∧
        KeepsAllBut [.regs, .pc, .wait, .outcome, .booted, .dt, .st, .host] s t)

/-! ## Timers, index, memory blocks -/

/-- FX07 and FX15 (R180, R181): the register reads the delay timer, the delay timer takes any register value. -/
def Obligations.DelayTimerAccesses : Prop :=
  ∀ (x : Reg) (s : State),
    (∃ t, exec (.ldVxDT x) s = .next t ∧ t.v[x] = s.dt ∧ KeepsRegsBut [x] s t ∧ t.pc = s.pc + 2 ∧
      KeepsAllBut [.regs, .pc] s t) ∧
    (∃ t, exec (.ldDTVx x) s = .next t ∧ t.dt = s.v[x] ∧ t.pc = s.pc + 2 ∧ KeepsAllBut [.dt, .pc] s t)

/-- FX18 sets the sound timer, and the sound output is on from then until the tick that brings the timer to 0, at once off
when the value is 0 (46_timer_index_memory.md; the output is decision D31, log 37). -/
def Obligations.SoundLastsAsManyTicks : Prop :=
  ∀ (x : Reg) (s : State), ∃ t, exec (.ldSTVx x) s = .next t ∧ t.st = s.v[x] ∧ t.pc = s.pc + 2 ∧
    KeepsAllBut [.st, .pc] s t ∧ ∀ n : Nat, (State.tick^[n] t).soundOn = decide (n < (s.v[x]).toNat)

/-- `ADD I, Vx`: modulo 65536, no flag (46_timer_index_memory.md; decision D10, log 13). -/
def Obligations.AddToIndexWraps : Prop :=
  ∀ (x : Reg) (s : State), ∃ t, exec (.addIVx x) s = .next t ∧
    t.i.toNat = (s.i.toNat + (s.v[x]).toNat) % 65536 ∧ t.pc = s.pc + 2 ∧ KeepsAllBut [.index, .pc] s t

/-- `LD F, Vx`: five times the low nibble of `V[X]` (46_timer_index_memory.md; decision D2, log 7). -/
def Obligations.GlyphAddressOfLowNibble : Prop :=
  ∀ (x : Reg) (s : State), ∃ t, exec (.ldFVx x) s = .next t ∧ t.i.toNat = 5 * ((s.v[x]).toNat % 16) ∧
    t.pc = s.pc + 2 ∧ KeepsAllBut [.index, .pc] s t

/-- `LD B, Vx`: the three decimal digits of `V[X]` at `I`, `I + 1`, `I + 2`, hundreds first, also below 0x200; nothing else
of memory changes; AddressOutOfRange when `I + 2` is above 0xFFF (46_timer_index_memory.md; decisions D18, D19, D23,
log 21, log 23, log 26). -/
def Obligations.StoresDecimalDigits : Prop :=
  ∀ (x : Reg) (s : State),
    (s.i.toNat + 2 ≤ 0xFFF → ∃ t, exec (.ldBVx x) s = .next t ∧
      (Memory.get t.mem s.i.toNat).toNat * 100 + (Memory.get t.mem (s.i.toNat + 1)).toNat * 10 +
        (Memory.get t.mem (s.i.toNat + 2)).toNat = (s.v[x]).toNat ∧
      (Memory.get t.mem (s.i.toNat + 1)).toNat ≤ 9 ∧ (Memory.get t.mem (s.i.toNat + 2)).toNat ≤ 9 ∧
      KeepsBytesOutside s.i.toNat 3 s t ∧ t.pc = s.pc + 2 ∧ KeepsAllBut [.memory, .pc] s t) ∧
    (0xFFF < s.i.toNat + 2 → exec (.ldBVx x) s = .fault .addressOutOfRange)

/-- `LD [I], Vx`: `V[0]` to `V[X]` at `I` upward, also below 0x200, `I` unchanged; AddressOutOfRange when `I + X` is above
0xFFF (46_timer_index_memory.md; decisions D9, D19, D23, log 12, log 21, log 26). -/
def Obligations.StoresRegisterBlock : Prop :=
  ∀ (x : Reg) (s : State),
    (s.i.toNat + x.val ≤ 0xFFF → ∃ t, exec (.ldMemVx x) s = .next t ∧
      (∀ r : Reg, r ≤ x → Memory.get t.mem (s.i.toNat + r.val) = s.v[r]) ∧
      KeepsBytesOutside s.i.toNat (x.val + 1) s t ∧ t.pc = s.pc + 2 ∧ KeepsAllBut [.memory, .pc] s t) ∧
    (0xFFF < s.i.toNat + x.val → exec (.ldMemVx x) s = .fault .addressOutOfRange)

/-- `LD Vx, [I]`: `V[0]` to `V[X]` from memory at `I` upward, the registers above and `I` unchanged; AddressOutOfRange when
`I + X` is above 0xFFF (46_timer_index_memory.md; decisions D9, D23, log 12, log 26). -/
def Obligations.LoadsRegisterBlock : Prop :=
  ∀ (x : Reg) (s : State),
    (s.i.toNat + x.val ≤ 0xFFF → ∃ t, exec (.ldVxMem x) s = .next t ∧
      (∀ r : Reg, r ≤ x → t.v[r] = Memory.get s.mem (s.i.toNat + r.val)) ∧
      (∀ r : Reg, x < r → t.v[r] = s.v[r]) ∧ t.pc = s.pc + 2 ∧ KeepsAllBut [.regs, .pc] s t) ∧
    (0xFFF < s.i.toNat + x.val → exec (.ldVxMem x) s = .fault .addressOutOfRange)

/-- A register block stored by FX55 and loaded back by FX65 at any later state with the same `I` and memory gives the
registers as they were stored (46_timer_index_memory.md; the load starts from the `I` that FX55 leaves, decision D9, log 12;
a store below 0x200 is decision D19, log 21). -/
def Obligations.StoreThenLoadRestores : Prop :=
  ∀ (x : Reg) (s t u : State), exec (.ldMemVx x) s = .next t → SamePart .index t u → SamePart .memory t u →
    ∃ w, exec (.ldVxMem x) u = .next w ∧ (∀ r : Reg, r ≤ x → w.v[r] = s.v[r]) ∧ ∀ r : Reg, x < r → w.v[r] = u.v[r]

/-- A store is seen by every later fetch while memory stays as the store left it, the very next one among them: each of the
two bytes fetched is the stored one where FX33 or FX55 stored there, be it one of the two or both, and the old one
elsewhere (20_memory.md R65, a derived rule; decision D33, log 31; what FX33 and FX55 store is D18, log 23, and D19, log 21). -/
def Obligations.FetchSeesStore : Prop :=
  ∀ (i : Instr) (s t u : State), exec i s = .next t → SamePart .memory t u → u.pc.toNat ≤ 0xFFE →
    u.fetch = .ok (byteAfterStore i s u.pc.toNat ++ byteAfterStore i s (u.pc.toNat + 1))
end

