-- ==== Sys2Proof/Laws/Decode.lean ====
section
/-! SUPPORT. Decoding and encoding in terms of the word's four nibbles (spec 30_encoding.md R81, R82, R85): what a row of the
opcode map tests, what each field is, and the nibbles an encoded format has. -/

namespace Sys2Proof

/-- Every word is its four nibbles (R81). -/
theorem word_eq_nibbles (w : Word) : ∃ a b c d : BitVec 4, w = a ++ b ++ c ++ d := by
  refine ⟨w.extractLsb' 12 4, w.extractLsb' 8 4, w.extractLsb' 4 4, w.extractLsb' 0 4, ?_⟩
  apply BitVec.eq_of_getLsbD_eq
  intro k hk
  simp only [BitVec.getLsbD_append, BitVec.getLsbD_extractLsb']
  grind

theorem byte_eq_nibbles (k : Byte) : ∃ c d : BitVec 4, k = c ++ d := by
  refine ⟨k.extractLsb' 4 4, k.extractLsb' 0 4, ?_⟩
  apply BitVec.eq_of_getLsbD_eq
  intro k hk
  simp only [BitVec.getLsbD_append, BitVec.getLsbD_extractLsb']
  grind

theorem addr12_eq_nibbles (k : Addr12) : ∃ b c d : BitVec 4, k = b ++ c ++ d := by
  refine ⟨k.extractLsb' 8 4, k.extractLsb' 4 4, k.extractLsb' 0 4, ?_⟩
  apply BitVec.eq_of_getLsbD_eq
  intro k hk
  simp only [BitVec.getLsbD_append, BitVec.getLsbD_extractLsb']
  grind

/-- Two words are equal when their nibbles are. -/
theorem nibbles_eq_iff (a b c d a' b' c' d' : BitVec 4) :
    (a ++ b ++ c ++ d : Word) = a' ++ b' ++ c' ++ d' ↔ a = a' ∧ b = b' ∧ c = c' ∧ d = d' := by
  constructor
  · intro h
    have hk : ∀ k, (a ++ b ++ c ++ d : Word).getLsbD k = (a' ++ b' ++ c' ++ d' : Word).getLsbD k := fun k => by rw [h]
    refine ⟨?_, ?_, ?_, ?_⟩ <;> apply BitVec.eq_of_getLsbD_eq <;> intro k hk4
    · have := hk (k + 12); simp only [BitVec.getLsbD_append] at this; grind
    · have := hk (k + 8); simp only [BitVec.getLsbD_append] at this; grind
    · have := hk (k + 4); simp only [BitVec.getLsbD_append] at this; grind
    · have := hk k; simp only [BitVec.getLsbD_append] at this; grind
  · rintro ⟨rfl, rfl, rfl, rfl⟩
    rfl

/-- What a row tests, nibble by nibble (R85). -/
theorem OpcodeRow.selects_nibbles (m p : Word) (f : Word → Instr) (a b c d : BitVec 4) :
    (OpcodeRow.mk m p f).selects (a ++ b ++ c ++ d) =
      (a &&& m.extractLsb' 12 4 == p.extractLsb' 12 4 && b &&& m.extractLsb' 8 4 == p.extractLsb' 8 4 &&
        c &&& m.extractLsb' 4 4 == p.extractLsb' 4 4 && d &&& m.extractLsb' 0 4 == p.extractLsb' 0 4) := by
  have hsplit : ∀ w : Word, w = w.extractLsb' 12 4 ++ w.extractLsb' 8 4 ++ w.extractLsb' 4 4 ++ w.extractLsb' 0 4 := by
    intro w
    apply BitVec.eq_of_getLsbD_eq
    intro k hk
    simp only [BitVec.getLsbD_append, BitVec.getLsbD_extractLsb']
    grind
  have hand : (a ++ b ++ c ++ d : Word) &&& m =
      (a &&& m.extractLsb' 12 4) ++ (b &&& m.extractLsb' 8 4) ++ (c &&& m.extractLsb' 4 4) ++ (d &&& m.extractLsb' 0 4) := by
    apply BitVec.eq_of_getLsbD_eq
    intro k hk
    simp only [BitVec.getLsbD_append, BitVec.getLsbD_and, BitVec.getLsbD_extractLsb']
    grind
  rw [Bool.eq_iff_iff]
  simp only [OpcodeRow.selects, hand, beq_iff_eq, Bool.and_eq_true]
  conv_lhs => rw [hsplit p]
  rw [nibbles_eq_iff, and_assoc, and_assoc]

@[simp] theorem nibble_and_ones (a : BitVec 4) : a &&& 15#4 = a := BitVec.and_allOnes (x := a)

/-! ## Fields of a word given by its nibbles (R81) -/

@[simp] theorem fieldX_nibbles (a b c d : BitVec 4) : fieldX (a ++ b ++ c ++ d) = b.toFin := by
  unfold fieldX; congr 1
  apply BitVec.eq_of_getLsbD_eq
  intro k hk
  simp only [BitVec.getLsbD_append, BitVec.getLsbD_extractLsb']
  grind

@[simp] theorem fieldY_nibbles (a b c d : BitVec 4) : fieldY (a ++ b ++ c ++ d) = c.toFin := by
  unfold fieldY; congr 1
  apply BitVec.eq_of_getLsbD_eq
  intro k hk
  simp only [BitVec.getLsbD_append, BitVec.getLsbD_extractLsb']
  grind

@[simp] theorem fieldN_nibbles (a b c d : BitVec 4) : fieldN (a ++ b ++ c ++ d) = d.toFin := by
  unfold fieldN; congr 1
  apply BitVec.eq_of_getLsbD_eq
  intro k hk
  simp only [BitVec.getLsbD_append, BitVec.getLsbD_extractLsb']
  grind

@[simp] theorem fieldKK_nibbles (a b c d : BitVec 4) : fieldKK (a ++ b ++ c ++ d) = c ++ d := by
  apply BitVec.eq_of_getLsbD_eq
  intro k hk
  simp only [fieldKK, BitVec.getLsbD_append, BitVec.getLsbD_extractLsb']
  grind

@[simp] theorem fieldNNN_nibbles (a b c d : BitVec 4) : fieldNNN (a ++ b ++ c ++ d) = b ++ c ++ d := by
  apply BitVec.eq_of_getLsbD_eq
  intro k hk
  simp only [fieldNNN, BitVec.getLsbD_append, BitVec.getLsbD_extractLsb']
  grind

/-! ## The nibbles of an encoded format (R82) -/

theorem encNNN_nibbles (op b c d : BitVec 4) : encNNN op (b ++ c ++ d) = op ++ b ++ c ++ d := by
  apply BitVec.eq_of_getLsbD_eq
  intro k hk
  simp only [encNNN, BitVec.getLsbD_append]
  grind

theorem encXKK_nibbles (op : BitVec 4) (x : Reg) (c d : BitVec 4) :
    encXKK op x (c ++ d) = op ++ (BitVec.ofFin x : BitVec 4) ++ c ++ d := by
  apply BitVec.eq_of_getLsbD_eq
  intro k hk
  simp only [encXKK, BitVec.getLsbD_append]
  grind

/-- The same for any low byte, a sub-opcode byte among them. -/
theorem encXKK_eq_nibbles (op : BitVec 4) (x : Reg) (k : Byte) :
    encXKK op x k = op ++ (BitVec.ofFin x : BitVec 4) ++ k.extractLsb' 4 4 ++ k.extractLsb' 0 4 := by
  apply BitVec.eq_of_getLsbD_eq
  intro j hj
  simp only [encXKK, BitVec.getLsbD_append, BitVec.getLsbD_extractLsb']
  grind

theorem encXYN_nibbles (op : BitVec 4) (x y n : Fin 16) :
    encXYN op x y n =
      op ++ (BitVec.ofFin x : BitVec 4) ++ (BitVec.ofFin y : BitVec 4) ++ (BitVec.ofFin n : BitVec 4) := rfl

end Sys2Proof
end

