-- ==== Sys2Proof/Laws/State.lean ====
section
/-! SUPPORT. What each named update of Machine/Ops.lean does to each field of State: one lemma per field per update, true by
unfolding once, so that no later proof unfolds a record update. -/

namespace Sys2Proof.Machine

/-! ### `State.setV` -/

@[simp] theorem State.setV_v (s : State) (x : Reg) (b : Byte) : (s.setV x b).v = s.v.set x.val b x.isLt := rfl
@[simp] theorem State.setV_i (s : State) (x : Reg) (b : Byte) : (s.setV x b).i = s.i := rfl
@[simp] theorem State.setV_pc (s : State) (x : Reg) (b : Byte) : (s.setV x b).pc = s.pc := rfl
@[simp] theorem State.setV_stack (s : State) (x : Reg) (b : Byte) : (s.setV x b).stack = s.stack := rfl
@[simp] theorem State.setV_sp (s : State) (x : Reg) (b : Byte) : (s.setV x b).sp = s.sp := rfl
@[simp] theorem State.setV_dt (s : State) (x : Reg) (b : Byte) : (s.setV x b).dt = s.dt := rfl
@[simp] theorem State.setV_st (s : State) (x : Reg) (b : Byte) : (s.setV x b).st = s.st := rfl
@[simp] theorem State.setV_fb (s : State) (x : Reg) (b : Byte) : (s.setV x b).fb = s.fb := rfl
@[simp] theorem State.setV_mem (s : State) (x : Reg) (b : Byte) : (s.setV x b).mem = s.mem := rfl
@[simp] theorem State.setV_waitValid (s : State) (x : Reg) (b : Byte) : (s.setV x b).waitValid = s.waitValid := rfl
@[simp] theorem State.setV_waitX (s : State) (x : Reg) (b : Byte) : (s.setV x b).waitX = s.waitX := rfl
@[simp] theorem State.setV_keyPrev (s : State) (x : Reg) (b : Byte) : (s.setV x b).keyPrev = s.keyPrev := rfl
@[simp] theorem State.setV_booted (s : State) (x : Reg) (b : Byte) : (s.setV x b).booted = s.booted := rfl
@[simp] theorem State.setV_outcome (s : State) (x : Reg) (b : Byte) : (s.setV x b).outcome = s.outcome := rfl
@[simp] theorem State.setV_script (s : State) (x : Reg) (b : Byte) : (s.setV x b).script = s.script := rfl
@[simp] theorem State.setV_turn (s : State) (x : Reg) (b : Byte) : (s.setV x b).turn = s.turn := rfl

/-! ### `State.setRegs` -/

@[simp] theorem State.setRegs_v (s : State) (w : Vector Byte 16) : (s.setRegs w).v = w := rfl
@[simp] theorem State.setRegs_i (s : State) (w : Vector Byte 16) : (s.setRegs w).i = s.i := rfl
@[simp] theorem State.setRegs_pc (s : State) (w : Vector Byte 16) : (s.setRegs w).pc = s.pc := rfl
@[simp] theorem State.setRegs_stack (s : State) (w : Vector Byte 16) : (s.setRegs w).stack = s.stack := rfl
@[simp] theorem State.setRegs_sp (s : State) (w : Vector Byte 16) : (s.setRegs w).sp = s.sp := rfl
@[simp] theorem State.setRegs_dt (s : State) (w : Vector Byte 16) : (s.setRegs w).dt = s.dt := rfl
@[simp] theorem State.setRegs_st (s : State) (w : Vector Byte 16) : (s.setRegs w).st = s.st := rfl
@[simp] theorem State.setRegs_fb (s : State) (w : Vector Byte 16) : (s.setRegs w).fb = s.fb := rfl
@[simp] theorem State.setRegs_mem (s : State) (w : Vector Byte 16) : (s.setRegs w).mem = s.mem := rfl
@[simp] theorem State.setRegs_waitValid (s : State) (w : Vector Byte 16) : (s.setRegs w).waitValid = s.waitValid := rfl
@[simp] theorem State.setRegs_waitX (s : State) (w : Vector Byte 16) : (s.setRegs w).waitX = s.waitX := rfl
@[simp] theorem State.setRegs_keyPrev (s : State) (w : Vector Byte 16) : (s.setRegs w).keyPrev = s.keyPrev := rfl
@[simp] theorem State.setRegs_booted (s : State) (w : Vector Byte 16) : (s.setRegs w).booted = s.booted := rfl
@[simp] theorem State.setRegs_outcome (s : State) (w : Vector Byte 16) : (s.setRegs w).outcome = s.outcome := rfl
@[simp] theorem State.setRegs_script (s : State) (w : Vector Byte 16) : (s.setRegs w).script = s.script := rfl
@[simp] theorem State.setRegs_turn (s : State) (w : Vector Byte 16) : (s.setRegs w).turn = s.turn := rfl

/-! ### `State.setI` -/

@[simp] theorem State.setI_v (s : State) (w : Word) : (s.setI w).v = s.v := rfl
@[simp] theorem State.setI_i (s : State) (w : Word) : (s.setI w).i = w := rfl
@[simp] theorem State.setI_pc (s : State) (w : Word) : (s.setI w).pc = s.pc := rfl
@[simp] theorem State.setI_stack (s : State) (w : Word) : (s.setI w).stack = s.stack := rfl
@[simp] theorem State.setI_sp (s : State) (w : Word) : (s.setI w).sp = s.sp := rfl
@[simp] theorem State.setI_dt (s : State) (w : Word) : (s.setI w).dt = s.dt := rfl
@[simp] theorem State.setI_st (s : State) (w : Word) : (s.setI w).st = s.st := rfl
@[simp] theorem State.setI_fb (s : State) (w : Word) : (s.setI w).fb = s.fb := rfl
@[simp] theorem State.setI_mem (s : State) (w : Word) : (s.setI w).mem = s.mem := rfl
@[simp] theorem State.setI_waitValid (s : State) (w : Word) : (s.setI w).waitValid = s.waitValid := rfl
@[simp] theorem State.setI_waitX (s : State) (w : Word) : (s.setI w).waitX = s.waitX := rfl
@[simp] theorem State.setI_keyPrev (s : State) (w : Word) : (s.setI w).keyPrev = s.keyPrev := rfl
@[simp] theorem State.setI_booted (s : State) (w : Word) : (s.setI w).booted = s.booted := rfl
@[simp] theorem State.setI_outcome (s : State) (w : Word) : (s.setI w).outcome = s.outcome := rfl
@[simp] theorem State.setI_script (s : State) (w : Word) : (s.setI w).script = s.script := rfl
@[simp] theorem State.setI_turn (s : State) (w : Word) : (s.setI w).turn = s.turn := rfl

/-! ### `State.setPc` -/

@[simp] theorem State.setPc_v (s : State) (w : Word) : (s.setPc w).v = s.v := rfl
@[simp] theorem State.setPc_i (s : State) (w : Word) : (s.setPc w).i = s.i := rfl
@[simp] theorem State.setPc_pc (s : State) (w : Word) : (s.setPc w).pc = w := rfl
@[simp] theorem State.setPc_stack (s : State) (w : Word) : (s.setPc w).stack = s.stack := rfl
@[simp] theorem State.setPc_sp (s : State) (w : Word) : (s.setPc w).sp = s.sp := rfl
@[simp] theorem State.setPc_dt (s : State) (w : Word) : (s.setPc w).dt = s.dt := rfl
@[simp] theorem State.setPc_st (s : State) (w : Word) : (s.setPc w).st = s.st := rfl
@[simp] theorem State.setPc_fb (s : State) (w : Word) : (s.setPc w).fb = s.fb := rfl
@[simp] theorem State.setPc_mem (s : State) (w : Word) : (s.setPc w).mem = s.mem := rfl
@[simp] theorem State.setPc_waitValid (s : State) (w : Word) : (s.setPc w).waitValid = s.waitValid := rfl
@[simp] theorem State.setPc_waitX (s : State) (w : Word) : (s.setPc w).waitX = s.waitX := rfl
@[simp] theorem State.setPc_keyPrev (s : State) (w : Word) : (s.setPc w).keyPrev = s.keyPrev := rfl
@[simp] theorem State.setPc_booted (s : State) (w : Word) : (s.setPc w).booted = s.booted := rfl
@[simp] theorem State.setPc_outcome (s : State) (w : Word) : (s.setPc w).outcome = s.outcome := rfl
@[simp] theorem State.setPc_script (s : State) (w : Word) : (s.setPc w).script = s.script := rfl
@[simp] theorem State.setPc_turn (s : State) (w : Word) : (s.setPc w).turn = s.turn := rfl

/-! ### `State.setDT` -/

@[simp] theorem State.setDT_v (s : State) (b : Byte) : (s.setDT b).v = s.v := rfl
@[simp] theorem State.setDT_i (s : State) (b : Byte) : (s.setDT b).i = s.i := rfl
@[simp] theorem State.setDT_pc (s : State) (b : Byte) : (s.setDT b).pc = s.pc := rfl
@[simp] theorem State.setDT_stack (s : State) (b : Byte) : (s.setDT b).stack = s.stack := rfl
@[simp] theorem State.setDT_sp (s : State) (b : Byte) : (s.setDT b).sp = s.sp := rfl
@[simp] theorem State.setDT_dt (s : State) (b : Byte) : (s.setDT b).dt = b := rfl
@[simp] theorem State.setDT_st (s : State) (b : Byte) : (s.setDT b).st = s.st := rfl
@[simp] theorem State.setDT_fb (s : State) (b : Byte) : (s.setDT b).fb = s.fb := rfl
@[simp] theorem State.setDT_mem (s : State) (b : Byte) : (s.setDT b).mem = s.mem := rfl
@[simp] theorem State.setDT_waitValid (s : State) (b : Byte) : (s.setDT b).waitValid = s.waitValid := rfl
@[simp] theorem State.setDT_waitX (s : State) (b : Byte) : (s.setDT b).waitX = s.waitX := rfl
@[simp] theorem State.setDT_keyPrev (s : State) (b : Byte) : (s.setDT b).keyPrev = s.keyPrev := rfl
@[simp] theorem State.setDT_booted (s : State) (b : Byte) : (s.setDT b).booted = s.booted := rfl
@[simp] theorem State.setDT_outcome (s : State) (b : Byte) : (s.setDT b).outcome = s.outcome := rfl
@[simp] theorem State.setDT_script (s : State) (b : Byte) : (s.setDT b).script = s.script := rfl
@[simp] theorem State.setDT_turn (s : State) (b : Byte) : (s.setDT b).turn = s.turn := rfl

/-! ### `State.setST` -/

@[simp] theorem State.setST_v (s : State) (b : Byte) : (s.setST b).v = s.v := rfl
@[simp] theorem State.setST_i (s : State) (b : Byte) : (s.setST b).i = s.i := rfl
@[simp] theorem State.setST_pc (s : State) (b : Byte) : (s.setST b).pc = s.pc := rfl
@[simp] theorem State.setST_stack (s : State) (b : Byte) : (s.setST b).stack = s.stack := rfl
@[simp] theorem State.setST_sp (s : State) (b : Byte) : (s.setST b).sp = s.sp := rfl
@[simp] theorem State.setST_dt (s : State) (b : Byte) : (s.setST b).dt = s.dt := rfl
@[simp] theorem State.setST_st (s : State) (b : Byte) : (s.setST b).st = b := rfl
@[simp] theorem State.setST_fb (s : State) (b : Byte) : (s.setST b).fb = s.fb := rfl
@[simp] theorem State.setST_mem (s : State) (b : Byte) : (s.setST b).mem = s.mem := rfl
@[simp] theorem State.setST_waitValid (s : State) (b : Byte) : (s.setST b).waitValid = s.waitValid := rfl
@[simp] theorem State.setST_waitX (s : State) (b : Byte) : (s.setST b).waitX = s.waitX := rfl
@[simp] theorem State.setST_keyPrev (s : State) (b : Byte) : (s.setST b).keyPrev = s.keyPrev := rfl
@[simp] theorem State.setST_booted (s : State) (b : Byte) : (s.setST b).booted = s.booted := rfl
@[simp] theorem State.setST_outcome (s : State) (b : Byte) : (s.setST b).outcome = s.outcome := rfl
@[simp] theorem State.setST_script (s : State) (b : Byte) : (s.setST b).script = s.script := rfl
@[simp] theorem State.setST_turn (s : State) (b : Byte) : (s.setST b).turn = s.turn := rfl

/-! ### `State.setFb` -/

@[simp] theorem State.setFb_v (s : State) (f : Framebuffer) : (s.setFb f).v = s.v := rfl
@[simp] theorem State.setFb_i (s : State) (f : Framebuffer) : (s.setFb f).i = s.i := rfl
@[simp] theorem State.setFb_pc (s : State) (f : Framebuffer) : (s.setFb f).pc = s.pc := rfl
@[simp] theorem State.setFb_stack (s : State) (f : Framebuffer) : (s.setFb f).stack = s.stack := rfl
@[simp] theorem State.setFb_sp (s : State) (f : Framebuffer) : (s.setFb f).sp = s.sp := rfl
@[simp] theorem State.setFb_dt (s : State) (f : Framebuffer) : (s.setFb f).dt = s.dt := rfl
@[simp] theorem State.setFb_st (s : State) (f : Framebuffer) : (s.setFb f).st = s.st := rfl
@[simp] theorem State.setFb_fb (s : State) (f : Framebuffer) : (s.setFb f).fb = f := rfl
@[simp] theorem State.setFb_mem (s : State) (f : Framebuffer) : (s.setFb f).mem = s.mem := rfl
@[simp] theorem State.setFb_waitValid (s : State) (f : Framebuffer) : (s.setFb f).waitValid = s.waitValid := rfl
@[simp] theorem State.setFb_waitX (s : State) (f : Framebuffer) : (s.setFb f).waitX = s.waitX := rfl
@[simp] theorem State.setFb_keyPrev (s : State) (f : Framebuffer) : (s.setFb f).keyPrev = s.keyPrev := rfl
@[simp] theorem State.setFb_booted (s : State) (f : Framebuffer) : (s.setFb f).booted = s.booted := rfl
@[simp] theorem State.setFb_outcome (s : State) (f : Framebuffer) : (s.setFb f).outcome = s.outcome := rfl
@[simp] theorem State.setFb_script (s : State) (f : Framebuffer) : (s.setFb f).script = s.script := rfl
@[simp] theorem State.setFb_turn (s : State) (f : Framebuffer) : (s.setFb f).turn = s.turn := rfl

/-! ### `State.setMem` -/

@[simp] theorem State.setMem_v (s : State) (m : Memory) : (s.setMem m).v = s.v := rfl
@[simp] theorem State.setMem_i (s : State) (m : Memory) : (s.setMem m).i = s.i := rfl
@[simp] theorem State.setMem_pc (s : State) (m : Memory) : (s.setMem m).pc = s.pc := rfl
@[simp] theorem State.setMem_stack (s : State) (m : Memory) : (s.setMem m).stack = s.stack := rfl
@[simp] theorem State.setMem_sp (s : State) (m : Memory) : (s.setMem m).sp = s.sp := rfl
@[simp] theorem State.setMem_dt (s : State) (m : Memory) : (s.setMem m).dt = s.dt := rfl
@[simp] theorem State.setMem_st (s : State) (m : Memory) : (s.setMem m).st = s.st := rfl
@[simp] theorem State.setMem_fb (s : State) (m : Memory) : (s.setMem m).fb = s.fb := rfl
@[simp] theorem State.setMem_mem (s : State) (m : Memory) : (s.setMem m).mem = m := rfl
@[simp] theorem State.setMem_waitValid (s : State) (m : Memory) : (s.setMem m).waitValid = s.waitValid := rfl
@[simp] theorem State.setMem_waitX (s : State) (m : Memory) : (s.setMem m).waitX = s.waitX := rfl
@[simp] theorem State.setMem_keyPrev (s : State) (m : Memory) : (s.setMem m).keyPrev = s.keyPrev := rfl
@[simp] theorem State.setMem_booted (s : State) (m : Memory) : (s.setMem m).booted = s.booted := rfl
@[simp] theorem State.setMem_outcome (s : State) (m : Memory) : (s.setMem m).outcome = s.outcome := rfl
@[simp] theorem State.setMem_script (s : State) (m : Memory) : (s.setMem m).script = s.script := rfl
@[simp] theorem State.setMem_turn (s : State) (m : Memory) : (s.setMem m).turn = s.turn := rfl

/-! ### `State.setStack` -/

@[simp] theorem State.setStack_v (s : State) (k : Vector Word 16) (p : Fin 17) : (s.setStack k p).v = s.v := rfl
@[simp] theorem State.setStack_i (s : State) (k : Vector Word 16) (p : Fin 17) : (s.setStack k p).i = s.i := rfl
@[simp] theorem State.setStack_pc (s : State) (k : Vector Word 16) (p : Fin 17) : (s.setStack k p).pc = s.pc := rfl
@[simp] theorem State.setStack_stack (s : State) (k : Vector Word 16) (p : Fin 17) : (s.setStack k p).stack = k := rfl
@[simp] theorem State.setStack_sp (s : State) (k : Vector Word 16) (p : Fin 17) : (s.setStack k p).sp = p := rfl
@[simp] theorem State.setStack_dt (s : State) (k : Vector Word 16) (p : Fin 17) : (s.setStack k p).dt = s.dt := rfl
@[simp] theorem State.setStack_st (s : State) (k : Vector Word 16) (p : Fin 17) : (s.setStack k p).st = s.st := rfl
@[simp] theorem State.setStack_fb (s : State) (k : Vector Word 16) (p : Fin 17) : (s.setStack k p).fb = s.fb := rfl
@[simp] theorem State.setStack_mem (s : State) (k : Vector Word 16) (p : Fin 17) : (s.setStack k p).mem = s.mem := rfl
@[simp] theorem State.setStack_waitValid (s : State) (k : Vector Word 16) (p : Fin 17) :
    (s.setStack k p).waitValid = s.waitValid := rfl
@[simp] theorem State.setStack_waitX (s : State) (k : Vector Word 16) (p : Fin 17) : (s.setStack k p).waitX = s.waitX :=
    rfl
@[simp] theorem State.setStack_keyPrev (s : State) (k : Vector Word 16) (p : Fin 17) :
    (s.setStack k p).keyPrev = s.keyPrev := rfl
@[simp] theorem State.setStack_booted (s : State) (k : Vector Word 16) (p : Fin 17) : (s.setStack k p).booted = s.booted :=
    rfl
@[simp] theorem State.setStack_outcome (s : State) (k : Vector Word 16) (p : Fin 17) :
    (s.setStack k p).outcome = s.outcome := rfl
@[simp] theorem State.setStack_script (s : State) (k : Vector Word 16) (p : Fin 17) : (s.setStack k p).script = s.script :=
    rfl
@[simp] theorem State.setStack_turn (s : State) (k : Vector Word 16) (p : Fin 17) : (s.setStack k p).turn = s.turn :=
    rfl

/-! ### `State.setWait` -/

@[simp] theorem State.setWait_v (s : State) (c : Bool) (x : Reg) (p : BitVec 16) : (s.setWait c x p).v = s.v := rfl
@[simp] theorem State.setWait_i (s : State) (c : Bool) (x : Reg) (p : BitVec 16) : (s.setWait c x p).i = s.i := rfl
@[simp] theorem State.setWait_pc (s : State) (c : Bool) (x : Reg) (p : BitVec 16) : (s.setWait c x p).pc = s.pc := rfl
@[simp] theorem State.setWait_stack (s : State) (c : Bool) (x : Reg) (p : BitVec 16) : (s.setWait c x p).stack = s.stack :=
    rfl
@[simp] theorem State.setWait_sp (s : State) (c : Bool) (x : Reg) (p : BitVec 16) : (s.setWait c x p).sp = s.sp := rfl
@[simp] theorem State.setWait_dt (s : State) (c : Bool) (x : Reg) (p : BitVec 16) : (s.setWait c x p).dt = s.dt := rfl
@[simp] theorem State.setWait_st (s : State) (c : Bool) (x : Reg) (p : BitVec 16) : (s.setWait c x p).st = s.st := rfl
@[simp] theorem State.setWait_fb (s : State) (c : Bool) (x : Reg) (p : BitVec 16) : (s.setWait c x p).fb = s.fb := rfl
@[simp] theorem State.setWait_mem (s : State) (c : Bool) (x : Reg) (p : BitVec 16) : (s.setWait c x p).mem = s.mem :=
    rfl
@[simp] theorem State.setWait_waitValid (s : State) (c : Bool) (x : Reg) (p : BitVec 16) :
    (s.setWait c x p).waitValid = c := rfl
@[simp] theorem State.setWait_waitX (s : State) (c : Bool) (x : Reg) (p : BitVec 16) : (s.setWait c x p).waitX = x :=
    rfl
@[simp] theorem State.setWait_keyPrev (s : State) (c : Bool) (x : Reg) (p : BitVec 16) : (s.setWait c x p).keyPrev = p :=
    rfl
@[simp] theorem State.setWait_booted (s : State) (c : Bool) (x : Reg) (p : BitVec 16) :
    (s.setWait c x p).booted = s.booted := rfl
@[simp] theorem State.setWait_outcome (s : State) (c : Bool) (x : Reg) (p : BitVec 16) :
    (s.setWait c x p).outcome = s.outcome := rfl
@[simp] theorem State.setWait_script (s : State) (c : Bool) (x : Reg) (p : BitVec 16) :
    (s.setWait c x p).script = s.script := rfl
@[simp] theorem State.setWait_turn (s : State) (c : Bool) (x : Reg) (p : BitVec 16) : (s.setWait c x p).turn = s.turn :=
    rfl

/-! ### `State.setOutcome` -/

@[simp] theorem State.setOutcome_v (s : State) (o : StepOutcome) : (s.setOutcome o).v = s.v := rfl
@[simp] theorem State.setOutcome_i (s : State) (o : StepOutcome) : (s.setOutcome o).i = s.i := rfl
@[simp] theorem State.setOutcome_pc (s : State) (o : StepOutcome) : (s.setOutcome o).pc = s.pc := rfl
@[simp] theorem State.setOutcome_stack (s : State) (o : StepOutcome) : (s.setOutcome o).stack = s.stack := rfl
@[simp] theorem State.setOutcome_sp (s : State) (o : StepOutcome) : (s.setOutcome o).sp = s.sp := rfl
@[simp] theorem State.setOutcome_dt (s : State) (o : StepOutcome) : (s.setOutcome o).dt = s.dt := rfl
@[simp] theorem State.setOutcome_st (s : State) (o : StepOutcome) : (s.setOutcome o).st = s.st := rfl
@[simp] theorem State.setOutcome_fb (s : State) (o : StepOutcome) : (s.setOutcome o).fb = s.fb := rfl
@[simp] theorem State.setOutcome_mem (s : State) (o : StepOutcome) : (s.setOutcome o).mem = s.mem := rfl
@[simp] theorem State.setOutcome_waitValid (s : State) (o : StepOutcome) : (s.setOutcome o).waitValid = s.waitValid :=
    rfl
@[simp] theorem State.setOutcome_waitX (s : State) (o : StepOutcome) : (s.setOutcome o).waitX = s.waitX := rfl
@[simp] theorem State.setOutcome_keyPrev (s : State) (o : StepOutcome) : (s.setOutcome o).keyPrev = s.keyPrev := rfl
@[simp] theorem State.setOutcome_booted (s : State) (o : StepOutcome) : (s.setOutcome o).booted = s.booted := rfl
@[simp] theorem State.setOutcome_outcome (s : State) (o : StepOutcome) : (s.setOutcome o).outcome = some o := rfl
@[simp] theorem State.setOutcome_script (s : State) (o : StepOutcome) : (s.setOutcome o).script = s.script := rfl
@[simp] theorem State.setOutcome_turn (s : State) (o : StepOutcome) : (s.setOutcome o).turn = s.turn := rfl

/-! ### `State.setBooted` -/

@[simp] theorem State.setBooted_v (s : State) : (s.setBooted).v = s.v := rfl
@[simp] theorem State.setBooted_i (s : State) : (s.setBooted).i = s.i := rfl
@[simp] theorem State.setBooted_pc (s : State) : (s.setBooted).pc = s.pc := rfl
@[simp] theorem State.setBooted_stack (s : State) : (s.setBooted).stack = s.stack := rfl
@[simp] theorem State.setBooted_sp (s : State) : (s.setBooted).sp = s.sp := rfl
@[simp] theorem State.setBooted_dt (s : State) : (s.setBooted).dt = s.dt := rfl
@[simp] theorem State.setBooted_st (s : State) : (s.setBooted).st = s.st := rfl
@[simp] theorem State.setBooted_fb (s : State) : (s.setBooted).fb = s.fb := rfl
@[simp] theorem State.setBooted_mem (s : State) : (s.setBooted).mem = s.mem := rfl
@[simp] theorem State.setBooted_waitValid (s : State) : (s.setBooted).waitValid = s.waitValid := rfl
@[simp] theorem State.setBooted_waitX (s : State) : (s.setBooted).waitX = s.waitX := rfl
@[simp] theorem State.setBooted_keyPrev (s : State) : (s.setBooted).keyPrev = s.keyPrev := rfl
@[simp] theorem State.setBooted_booted (s : State) : (s.setBooted).booted = true := rfl
@[simp] theorem State.setBooted_outcome (s : State) : (s.setBooted).outcome = s.outcome := rfl
@[simp] theorem State.setBooted_script (s : State) : (s.setBooted).script = s.script := rfl
@[simp] theorem State.setBooted_turn (s : State) : (s.setBooted).turn = s.turn := rfl

/-! ### `State.advance` -/

@[simp] theorem State.advance_v (s : State) : (s.advance).v = s.v := rfl
@[simp] theorem State.advance_i (s : State) : (s.advance).i = s.i := rfl
@[simp] theorem State.advance_pc (s : State) : (s.advance).pc = s.pc + 2 := rfl
@[simp] theorem State.advance_stack (s : State) : (s.advance).stack = s.stack := rfl
@[simp] theorem State.advance_sp (s : State) : (s.advance).sp = s.sp := rfl
@[simp] theorem State.advance_dt (s : State) : (s.advance).dt = s.dt := rfl
@[simp] theorem State.advance_st (s : State) : (s.advance).st = s.st := rfl
@[simp] theorem State.advance_fb (s : State) : (s.advance).fb = s.fb := rfl
@[simp] theorem State.advance_mem (s : State) : (s.advance).mem = s.mem := rfl
@[simp] theorem State.advance_waitValid (s : State) : (s.advance).waitValid = s.waitValid := rfl
@[simp] theorem State.advance_waitX (s : State) : (s.advance).waitX = s.waitX := rfl
@[simp] theorem State.advance_keyPrev (s : State) : (s.advance).keyPrev = s.keyPrev := rfl
@[simp] theorem State.advance_booted (s : State) : (s.advance).booted = s.booted := rfl
@[simp] theorem State.advance_outcome (s : State) : (s.advance).outcome = s.outcome := rfl
@[simp] theorem State.advance_script (s : State) : (s.advance).script = s.script := rfl
@[simp] theorem State.advance_turn (s : State) : (s.advance).turn = s.turn := rfl

/-! ### `State.skipIf` -/

@[simp] theorem State.skipIf_v (s : State) (c : Bool) : (s.skipIf c).v = s.v := rfl
@[simp] theorem State.skipIf_i (s : State) (c : Bool) : (s.skipIf c).i = s.i := rfl
@[simp] theorem State.skipIf_pc (s : State) (c : Bool) : (s.skipIf c).pc = if c then s.pc + 4 else s.pc + 2 := rfl
@[simp] theorem State.skipIf_stack (s : State) (c : Bool) : (s.skipIf c).stack = s.stack := rfl
@[simp] theorem State.skipIf_sp (s : State) (c : Bool) : (s.skipIf c).sp = s.sp := rfl
@[simp] theorem State.skipIf_dt (s : State) (c : Bool) : (s.skipIf c).dt = s.dt := rfl
@[simp] theorem State.skipIf_st (s : State) (c : Bool) : (s.skipIf c).st = s.st := rfl
@[simp] theorem State.skipIf_fb (s : State) (c : Bool) : (s.skipIf c).fb = s.fb := rfl
@[simp] theorem State.skipIf_mem (s : State) (c : Bool) : (s.skipIf c).mem = s.mem := rfl
@[simp] theorem State.skipIf_waitValid (s : State) (c : Bool) : (s.skipIf c).waitValid = s.waitValid := rfl
@[simp] theorem State.skipIf_waitX (s : State) (c : Bool) : (s.skipIf c).waitX = s.waitX := rfl
@[simp] theorem State.skipIf_keyPrev (s : State) (c : Bool) : (s.skipIf c).keyPrev = s.keyPrev := rfl
@[simp] theorem State.skipIf_booted (s : State) (c : Bool) : (s.skipIf c).booted = s.booted := rfl
@[simp] theorem State.skipIf_outcome (s : State) (c : Bool) : (s.skipIf c).outcome = s.outcome := rfl
@[simp] theorem State.skipIf_script (s : State) (c : Bool) : (s.skipIf c).script = s.script := rfl
@[simp] theorem State.skipIf_turn (s : State) (c : Bool) : (s.skipIf c).turn = s.turn := rfl

/-! ### `State.setResultThenFlag` -/

@[simp] theorem State.setResultThenFlag_v (s : State) (x : Reg) (b : Byte) (c : Bool) :
    (s.setResultThenFlag x b c).v = (s.v.set x.val b x.isLt).set VF.val (flagByte c) VF.isLt := rfl
@[simp] theorem State.setResultThenFlag_i (s : State) (x : Reg) (b : Byte) (c : Bool) :
    (s.setResultThenFlag x b c).i = s.i := rfl
@[simp] theorem State.setResultThenFlag_pc (s : State) (x : Reg) (b : Byte) (c : Bool) :
    (s.setResultThenFlag x b c).pc = s.pc := rfl
@[simp] theorem State.setResultThenFlag_stack (s : State) (x : Reg) (b : Byte) (c : Bool) :
    (s.setResultThenFlag x b c).stack = s.stack := rfl
@[simp] theorem State.setResultThenFlag_sp (s : State) (x : Reg) (b : Byte) (c : Bool) :
    (s.setResultThenFlag x b c).sp = s.sp := rfl
@[simp] theorem State.setResultThenFlag_dt (s : State) (x : Reg) (b : Byte) (c : Bool) :
    (s.setResultThenFlag x b c).dt = s.dt := rfl
@[simp] theorem State.setResultThenFlag_st (s : State) (x : Reg) (b : Byte) (c : Bool) :
    (s.setResultThenFlag x b c).st = s.st := rfl
@[simp] theorem State.setResultThenFlag_fb (s : State) (x : Reg) (b : Byte) (c : Bool) :
    (s.setResultThenFlag x b c).fb = s.fb := rfl
@[simp] theorem State.setResultThenFlag_mem (s : State) (x : Reg) (b : Byte) (c : Bool) :
    (s.setResultThenFlag x b c).mem = s.mem := rfl
@[simp] theorem State.setResultThenFlag_waitValid (s : State) (x : Reg) (b : Byte) (c : Bool) :
    (s.setResultThenFlag x b c).waitValid = s.waitValid := rfl
@[simp] theorem State.setResultThenFlag_waitX (s : State) (x : Reg) (b : Byte) (c : Bool) :
    (s.setResultThenFlag x b c).waitX = s.waitX := rfl
@[simp] theorem State.setResultThenFlag_keyPrev (s : State) (x : Reg) (b : Byte) (c : Bool) :
    (s.setResultThenFlag x b c).keyPrev = s.keyPrev := rfl
@[simp] theorem State.setResultThenFlag_booted (s : State) (x : Reg) (b : Byte) (c : Bool) :
    (s.setResultThenFlag x b c).booted = s.booted := rfl
@[simp] theorem State.setResultThenFlag_outcome (s : State) (x : Reg) (b : Byte) (c : Bool) :
    (s.setResultThenFlag x b c).outcome = s.outcome := rfl
@[simp] theorem State.setResultThenFlag_script (s : State) (x : Reg) (b : Byte) (c : Bool) :
    (s.setResultThenFlag x b c).script = s.script := rfl
@[simp] theorem State.setResultThenFlag_turn (s : State) (x : Reg) (b : Byte) (c : Bool) :
    (s.setResultThenFlag x b c).turn = s.turn := rfl

/-! ### `State.beginStep` -/

@[simp] theorem State.beginStep_v (s : State) : (s.beginStep).v = s.v := rfl
@[simp] theorem State.beginStep_i (s : State) : (s.beginStep).i = s.i := rfl
@[simp] theorem State.beginStep_pc (s : State) : (s.beginStep).pc = s.pc := rfl
@[simp] theorem State.beginStep_stack (s : State) : (s.beginStep).stack = s.stack := rfl
@[simp] theorem State.beginStep_sp (s : State) : (s.beginStep).sp = s.sp := rfl
@[simp] theorem State.beginStep_dt (s : State) : (s.beginStep).dt = s.dt := rfl
@[simp] theorem State.beginStep_st (s : State) : (s.beginStep).st = s.st := rfl
@[simp] theorem State.beginStep_fb (s : State) : (s.beginStep).fb = s.fb := rfl
@[simp] theorem State.beginStep_mem (s : State) : (s.beginStep).mem = s.mem := rfl
@[simp] theorem State.beginStep_waitValid (s : State) : (s.beginStep).waitValid = s.waitValid := rfl
@[simp] theorem State.beginStep_waitX (s : State) : (s.beginStep).waitX = s.waitX := rfl
@[simp] theorem State.beginStep_keyPrev (s : State) : (s.beginStep).keyPrev = s.keyPrev := rfl
@[simp] theorem State.beginStep_booted (s : State) : (s.beginStep).booted = true := rfl
@[simp] theorem State.beginStep_outcome (s : State) : (s.beginStep).outcome = some .continued := rfl
@[simp] theorem State.beginStep_script (s : State) : (s.beginStep).script = s.script := rfl
@[simp] theorem State.beginStep_turn (s : State) : (s.beginStep).turn = s.turn := rfl

/-! ### `State.afterFault` -/

@[simp] theorem State.afterFault_v (s : State) (r : Fault) : (s.afterFault r).v = s.v := rfl
@[simp] theorem State.afterFault_i (s : State) (r : Fault) : (s.afterFault r).i = s.i := rfl
@[simp] theorem State.afterFault_pc (s : State) (r : Fault) : (s.afterFault r).pc = s.pc := rfl
@[simp] theorem State.afterFault_stack (s : State) (r : Fault) : (s.afterFault r).stack = s.stack := rfl
@[simp] theorem State.afterFault_sp (s : State) (r : Fault) : (s.afterFault r).sp = s.sp := rfl
@[simp] theorem State.afterFault_dt (s : State) (r : Fault) : (s.afterFault r).dt = s.dt := rfl
@[simp] theorem State.afterFault_st (s : State) (r : Fault) : (s.afterFault r).st = s.st := rfl
@[simp] theorem State.afterFault_fb (s : State) (r : Fault) : (s.afterFault r).fb = s.fb := rfl
@[simp] theorem State.afterFault_mem (s : State) (r : Fault) : (s.afterFault r).mem = s.mem := rfl
@[simp] theorem State.afterFault_waitValid (s : State) (r : Fault) : (s.afterFault r).waitValid = s.waitValid := rfl
@[simp] theorem State.afterFault_waitX (s : State) (r : Fault) : (s.afterFault r).waitX = s.waitX := rfl
@[simp] theorem State.afterFault_keyPrev (s : State) (r : Fault) : (s.afterFault r).keyPrev = s.keyPrev := rfl
@[simp] theorem State.afterFault_booted (s : State) (r : Fault) : (s.afterFault r).booted = true := rfl
@[simp] theorem State.afterFault_outcome (s : State) (r : Fault) : (s.afterFault r).outcome = some (.fault r) := rfl
@[simp] theorem State.afterFault_script (s : State) (r : Fault) : (s.afterFault r).script = s.script := rfl
@[simp] theorem State.afterFault_turn (s : State) (r : Fault) : (s.afterFault r).turn = s.turn := rfl

/-! ### `State.tick` -/

@[simp] theorem State.tick_v (s : State) : (s.tick).v = s.v := rfl
@[simp] theorem State.tick_i (s : State) : (s.tick).i = s.i := rfl
@[simp] theorem State.tick_pc (s : State) : (s.tick).pc = s.pc := rfl
@[simp] theorem State.tick_stack (s : State) : (s.tick).stack = s.stack := rfl
@[simp] theorem State.tick_sp (s : State) : (s.tick).sp = s.sp := rfl
@[simp] theorem State.tick_dt (s : State) : (s.tick).dt = tickTimer s.dt := rfl
@[simp] theorem State.tick_st (s : State) : (s.tick).st = tickTimer s.st := rfl
@[simp] theorem State.tick_fb (s : State) : (s.tick).fb = s.fb := rfl
@[simp] theorem State.tick_mem (s : State) : (s.tick).mem = s.mem := rfl
@[simp] theorem State.tick_waitValid (s : State) : (s.tick).waitValid = s.waitValid := rfl
@[simp] theorem State.tick_waitX (s : State) : (s.tick).waitX = s.waitX := rfl
@[simp] theorem State.tick_keyPrev (s : State) : (s.tick).keyPrev = s.keyPrev := rfl
@[simp] theorem State.tick_booted (s : State) : (s.tick).booted = s.booted := rfl
@[simp] theorem State.tick_outcome (s : State) : (s.tick).outcome = s.outcome := rfl
@[simp] theorem State.tick_script (s : State) : (s.tick).script = s.script := rfl
@[simp] theorem State.tick_turn (s : State) : (s.tick).turn = s.turn := rfl

/-! ### `State.hostMoves` -/

@[simp] theorem State.hostMoves_v (s : State) : (s.hostMoves).v = s.v := rfl
@[simp] theorem State.hostMoves_i (s : State) : (s.hostMoves).i = s.i := rfl
@[simp] theorem State.hostMoves_pc (s : State) : (s.hostMoves).pc = s.pc := rfl
@[simp] theorem State.hostMoves_stack (s : State) : (s.hostMoves).stack = s.stack := rfl
@[simp] theorem State.hostMoves_sp (s : State) : (s.hostMoves).sp = s.sp := rfl
@[simp] theorem State.hostMoves_dt (s : State) : (s.hostMoves).dt = countDown s.hostTurn.ticks s.dt := rfl
@[simp] theorem State.hostMoves_st (s : State) : (s.hostMoves).st = countDown s.hostTurn.ticks s.st := rfl
@[simp] theorem State.hostMoves_fb (s : State) : (s.hostMoves).fb = s.fb := rfl
@[simp] theorem State.hostMoves_mem (s : State) : (s.hostMoves).mem = s.mem := rfl
@[simp] theorem State.hostMoves_waitValid (s : State) : (s.hostMoves).waitValid = s.waitValid := rfl
@[simp] theorem State.hostMoves_waitX (s : State) : (s.hostMoves).waitX = s.waitX := rfl
@[simp] theorem State.hostMoves_keyPrev (s : State) : (s.hostMoves).keyPrev = s.keyPrev := rfl
@[simp] theorem State.hostMoves_booted (s : State) : (s.hostMoves).booted = s.booted := rfl
@[simp] theorem State.hostMoves_outcome (s : State) : (s.hostMoves).outcome = s.outcome := rfl
@[simp] theorem State.hostMoves_script (s : State) : (s.hostMoves).script = s.script.tail := rfl
@[simp] theorem State.hostMoves_turn (s : State) : (s.hostMoves).turn = s.turn + 1 := rfl

end Sys2Proof.Machine
end

