-- ==== Sys2Proof/Laws/Display.lean ====
section
/-! SUPPORT. What drawing a list of pixels does when no pixel occurs twice: each is inverted, and the collision bit tells
whether one of them was set (spec 44_display.md R161 (a), (e)). -/

namespace Sys2Proof.Machine

/-- Reading a pixel after inverting one (R161 (a): "xor exactly one bit per sprite bit"). -/
theorem pixel_togglePixel (fb : Framebuffer) (p q : Fin 64 × Fin 32) :
    pixel (togglePixel fb p) q = if q = p then !pixel fb p else pixel fb q := by
  obtain ⟨px, py⟩ := p
  obtain ⟨qx, qy⟩ := q
  simp only [pixel, togglePixel, Fin.getElem_fin, Vector.getElem_set, Prod.mk.injEq, Fin.ext_iff]
  by_cases hy : py.val = qy.val
  · by_cases hx : px.val = qx.val
    · simp [hx, hy]
    · simp [hy, hx, Ne.symm hx]
  · simp [hy, Ne.symm hy]

@[simp] theorem pixel_blankFb (p : Fin 64 × Fin 32) : pixel blankFb p = false := by
  simp [pixel, blankFb]

/-- The pixels a row's 1 bits fall on, left to right. -/
def rowPixels (x0 y0 r : Nat) (b : Byte) : List (Fin 64 × Fin 32) :=
  ((List.range 8).filter fun c => b.getLsbD (7 - c)).map fun c => pixelAt x0 y0 r c

/-- The pixels the 1 bits of the rows from `r` on fall on. -/
def spritePixels (x0 y0 r : Nat) (bytes : List Byte) : List (Fin 64 × Fin 32) :=
  match bytes with
  | [] => []
  | b :: rest => rowPixels x0 y0 r b ++ spritePixels x0 y0 (r + 1) rest

/-- Inverting the pixels of a list, one after the other. -/
def drawPixels (d : Drawing) (ps : List (Fin 64 × Fin 32)) : Drawing := ps.foldl (fun e p => drawBit e p true) d

theorem foldl_drawBit (d : Drawing) (cs : List Nat) (f : Nat → Fin 64 × Fin 32) (bit : Nat → Bool) :
    cs.foldl (fun e c => drawBit e (f c) (bit c)) d = drawPixels d ((cs.filter bit).map f) := by
  induction cs generalizing d with
  | nil => rfl
  | cons c rest ih =>
    rw [List.foldl_cons, ih]
    cases h : bit c with
    | true => simp [h, drawPixels]
    | false => simp [h, drawPixels, drawBit]

theorem drawRows_eq_drawPixels (x0 y0 r : Nat) (bytes : List Byte) (d : Drawing) :
    drawRows x0 y0 r bytes d = drawPixels d (spritePixels x0 y0 r bytes) := by
  induction bytes generalizing r d with
  | nil => rfl
  | cons b rest ih =>
    rw [drawRows, ih, drawRow, foldl_drawBit]
    simp [spritePixels, rowPixels, drawPixels]

/-- Drawing distinct pixels: each listed pixel inverted, the others kept, and a collision exactly when one was set. -/
theorem drawPixels_spec (d : Drawing) (ps : List (Fin 64 × Fin 32)) (h : ps.Nodup) :
    (∀ q, pixel (drawPixels d ps).fb q = (pixel d.fb q ^^ decide (q ∈ ps))) ∧
    ((drawPixels d ps).collision = true ↔ d.collision = true ∨ ∃ p ∈ ps, pixel d.fb p = true) := by
  induction ps generalizing d with
  | nil => simp [drawPixels]
  | cons p rest ih =>
    obtain ⟨hp, hr⟩ := List.nodup_cons.1 h
    have hstep : drawPixels d (p :: rest) = drawPixels (drawBit d p true) rest := rfl
    obtain ⟨h1, h2⟩ := ih (drawBit d p true) hr
    rw [hstep]
    refine ⟨fun q => ?_, ?_⟩
    · rw [h1]
      by_cases hq : q = p
      · subst hq; simp [drawBit, pixel_togglePixel, hp]
      · simp [drawBit, pixel_togglePixel, hq]
    · rw [h2]
      have hne : ∀ q ∈ rest, pixel (drawBit d p true).fb q = pixel d.fb q := fun q hq => by
        have : q ≠ p := fun e => hp (e ▸ hq)
        simp [drawBit, pixel_togglePixel, this]
      simp only [List.mem_cons, exists_eq_or_imp]
      constructor
      · rintro (h | ⟨q, hq, hs⟩)
        · simp only [drawBit, if_true, Bool.or_eq_true] at h
          tauto
        · exact .inr (.inr ⟨q, hq, by rw [← hne q hq]; exact hs⟩)
      · rintro (h | h | ⟨q, hq, hs⟩)
        · simp [drawBit, h]
        · simp [drawBit, h]
        · exact .inr ⟨q, hq, by rw [hne q hq]; exact hs⟩

/-- A pixel is among a sprite's when one of its 1 bits falls on it. -/
theorem mem_spritePixels (x0 y0 r : Nat) (bytes : List Byte) (q : Fin 64 × Fin 32) :
    q ∈ spritePixels x0 y0 r bytes ↔
      ∃ k c, ∃ b, bytes[k]? = some b ∧ c < 8 ∧ b.getLsbD (7 - c) = true ∧ q = pixelAt x0 y0 (r + k) c := by
  induction bytes generalizing r with
  | nil => simp [spritePixels]
  | cons b rest ih =>
    simp only [spritePixels, List.mem_append, ih, rowPixels, List.mem_map, List.mem_filter, List.mem_range]
    constructor
    · rintro (⟨c, ⟨hc, hb⟩, rfl⟩ | ⟨k, c, b', hk, hc, hb, rfl⟩)
      · exact ⟨0, c, b, rfl, hc, hb, rfl⟩
      · exact ⟨k + 1, c, b', by simpa using hk, hc, hb, by rw [show r + 1 + k = r + (k + 1) by omega]⟩
    · rintro ⟨k, c, b', hk, hc, hb, rfl⟩
      cases k with
      | zero =>
        simp only [List.getElem?_cons_zero, Option.some.injEq] at hk
        subst hk
        exact .inl ⟨c, ⟨hc, hb⟩, rfl⟩
      | succ k =>
        exact .inr ⟨k, c, b', by simpa using hk, hc, hb, by rw [show r + 1 + k = r + (k + 1) by omega]⟩

theorem pixelAt_inj {x0 y0 r c r' c' : Nat} (h : pixelAt x0 y0 r c = pixelAt x0 y0 r' c')
    (hc : c < 8) (hc' : c' < 8) (hr : r < 32) (hr' : r' < 32) : r = r' ∧ c = c' := by
  simp only [pixelAt, Prod.mk.injEq, Fin.mk.injEq] at h
  omega

/-- No two bits of one sprite of at most 32 rows fall on the same pixel (R161 (e)). -/
theorem nodup_spritePixels (x0 y0 r : Nat) (bytes : List Byte) (h : r + bytes.length ≤ 32) :
    (spritePixels x0 y0 r bytes).Nodup := by
  induction bytes generalizing r with
  | nil => exact List.nodup_nil
  | cons b rest ih =>
    simp only [List.length_cons] at h
    rw [spritePixels, List.nodup_append]
    refine ⟨?_, ih (r + 1) (by omega), ?_⟩
    · apply List.Nodup.map_on _ (List.nodup_range.filter _)
      intro c hc c' hc' he
      simp only [List.mem_filter, List.mem_range] at hc hc'
      exact (pixelAt_inj he hc.1 hc'.1 (by omega) (by omega)).2
    · intro p hp q hq he
      subst he
      obtain ⟨k, c, b', hk, hc, _, hq⟩ := (mem_spritePixels _ _ _ _ _).1 hq
      simp only [rowPixels, List.mem_map, List.mem_filter, List.mem_range] at hp
      obtain ⟨c', ⟨hc', _⟩, hp⟩ := hp
      have hk' : k < rest.length := by
        by_contra hn
        rw [List.getElem?_eq_none (by omega)] at hk
        cases hk
      have := (pixelAt_inj (hp.trans hq) hc' hc (by omega) (by omega)).1
      omega

/-- All drawing a sprite does: the pixels of its 1 bits are inverted, and it collides exactly when one was set. -/
theorem drawRows_spec (x0 y0 : Nat) (bytes : List Byte) (fb : Framebuffer) (h : bytes.length ≤ 32) :
    (∀ q, pixel (drawRows x0 y0 0 bytes ⟨fb, false⟩).fb q = (pixel fb q ^^ decide (q ∈ spritePixels x0 y0 0 bytes))) ∧
    ((drawRows x0 y0 0 bytes ⟨fb, false⟩).collision = true ↔
      ∃ p ∈ spritePixels x0 y0 0 bytes, pixel fb p = true) := by
  rw [drawRows_eq_drawPixels]
  have := drawPixels_spec ⟨fb, false⟩ _ (nodup_spritePixels x0 y0 0 bytes (by omega))
  simpa using this

end Sys2Proof.Machine
end

