-- ==== Sys2Proof/Laws/Memory.lean ====
section
/-! SUPPORT. What the memory operations do: one byte read after one byte written, blocks, and that every operation keeps the
canonical form (spec 20_memory.md R52 to R56). -/

namespace Sys2Proof.Machine

theorem Memory.get_of_not_listed (m : Memory) (a : Nat) (h : ∀ c ∈ m, c.1 ≠ a) : Memory.get m a = Memory.unlisted a := by
  induction m with
  | nil => rfl
  | cons c rest ih =>
    have hc := h c (by simp)
    simp only [Memory.get, hc, if_false]
    exact ih fun d hd => h d (by simp [hd])

theorem Memory.erase_not_listed (m : Memory) (a : Nat) : ∀ c ∈ Memory.erase m a, c.1 ≠ a := by
  intro c hc
  simpa using (List.mem_filter.1 hc).2

theorem Memory.get_erase_of_ne (m : Memory) {a a' : Nat} (h : a' ≠ a) :
    Memory.get (Memory.erase m a) a' = Memory.get m a' := by
  induction m with
  | nil => rfl
  | cons c rest ih =>
    obtain ⟨k, b⟩ := c
    by_cases hk : k = a
    · subst hk
      simpa [Memory.erase, Memory.get, Ne.symm h] using ih
    · simp only [Memory.erase, List.filter_cons, bne_iff_ne, ne_eq, hk, not_false_eq_true, if_true, Memory.get] at ih ⊢
      rw [ih]

theorem Memory.get_insert_same (m : Memory) (a : Nat) (b : Byte) (h : ∀ c ∈ m, c.1 ≠ a) :
    Memory.get (Memory.insert m a b) a = b := by
  induction m with
  | nil => simp [Memory.insert, Memory.get]
  | cons c rest ih =>
    have hc := h c (by simp)
    unfold Memory.insert
    split
    · simpa [Memory.get, hc] using ih fun d hd => h d (by simp [hd])
    · simp [Memory.get]

theorem Memory.get_insert_of_ne (m : Memory) {a a' : Nat} (b : Byte) (h : a' ≠ a) :
    Memory.get (Memory.insert m a b) a' = Memory.get m a' := by
  induction m with
  | nil => simp [Memory.insert, Memory.get, Ne.symm h]
  | cons c rest ih =>
    unfold Memory.insert
    split
    · simp [Memory.get, ih]
    · simp [Memory.get, Ne.symm h]

/-- Read after write: the byte written where it was written, every other byte as before (R53, R54, R62 (c)). -/
theorem Memory.get_put (m : Memory) (a a' : Nat) (b : Byte) :
    Memory.get (Memory.put m a b) a' = if a' = a then b else Memory.get m a' := by
  unfold Memory.put
  by_cases h : a' = a
  · subst h
    by_cases hb : b = Memory.unlisted a'
    · simp [hb, Memory.get_of_not_listed _ _ (Memory.erase_not_listed m a')]
    · simp [hb, Memory.get_insert_same _ _ _ (Memory.erase_not_listed m a')]
  · by_cases hb : b = Memory.unlisted a
    · simp [hb, h, Memory.get_erase_of_ne m h]
    · simp [hb, h, Memory.get_insert_of_ne _ _ h, Memory.get_erase_of_ne m h]

/-- Read after a block write: the block's byte inside the block, every other byte as before. -/
theorem Memory.get_putAll (m : Memory) (a a' : Nat) (bytes : List Byte) :
    Memory.get (Memory.putAll m a bytes) a' =
      if a ≤ a' then (bytes[a' - a]?).getD (Memory.get m a') else Memory.get m a' := by
  induction bytes generalizing m a with
  | nil => simp [Memory.putAll]
  | cons b rest ih =>
    rw [Memory.putAll, ih, Memory.get_put]
    by_cases h1 : a' = a
    · subst h1; simp
    · by_cases h2 : a ≤ a'
      · obtain ⟨k, rfl⟩ : ∃ k, a' = a + 1 + k := ⟨a' - (a + 1), by omega⟩
        have h3 : a + 1 + k - a = k + 1 := by omega
        simp [h1, h3, show a ≤ a + 1 + k by omega]
      · simp [h1, h2, show ¬a + 1 ≤ a' by omega]

theorem Memory.get_putAll_outside (m : Memory) (a a' : Nat) (bytes : List Byte) (h : ¬(a ≤ a' ∧ a' < a + bytes.length)) :
    Memory.get (Memory.putAll m a bytes) a' = Memory.get m a' := by
  rw [Memory.get_putAll]
  split
  · rw [List.getElem?_eq_none (by omega)]; rfl
  · rfl

theorem Memory.wf_iff (m : Memory) :
    Memory.wf m = true ↔ m.Pairwise (fun c d => c.1 < d.1) ∧
      ∀ c ∈ m, c.1 < 4096 ∧ c.2 ≠ Memory.unlisted c.1 := by
  simp only [Memory.wf, Config.memSize, Bool.and_eq_true, decide_eq_true_eq, List.all_eq_true, bne_iff_ne, ne_eq]

theorem Memory.wf_erase (m : Memory) (a : Nat) (h : Memory.wf m = true) : Memory.wf (Memory.erase m a) = true := by
  rw [Memory.wf_iff] at h ⊢
  exact ⟨h.1.sublist List.filter_sublist, fun c hc => h.2 c (List.mem_filter.1 hc).1⟩

theorem Memory.mem_insert (m : Memory) (a : Nat) (b : Byte) (c : Host.Cell) :
    c ∈ Memory.insert m a b ↔ c = (a, b) ∨ c ∈ m := by
  induction m with
  | nil => simp [Memory.insert]
  | cons d rest ih =>
    unfold Memory.insert
    split
    · simp only [List.mem_cons, ih]; tauto
    · simp

theorem Memory.pairwise_insert (m : Memory) (a : Nat) (b : Byte) (h : m.Pairwise fun c d => c.1 < d.1)
    (ha : ∀ c ∈ m, c.1 ≠ a) : (Memory.insert m a b).Pairwise fun c d => c.1 < d.1 := by
  induction m with
  | nil => simp [Memory.insert]
  | cons d rest ih =>
    rw [List.pairwise_cons] at h
    unfold Memory.insert
    split
    · next hd =>
      rw [List.pairwise_cons]
      refine ⟨fun c hc => ?_, ih h.2 fun c hc => ha c (by simp [hc])⟩
      rcases (Memory.mem_insert _ _ _ _).1 hc with rfl | hc
      · exact hd
      · exact h.1 c hc
    · next hd =>
      have hda := ha d (by simp)
      rw [List.pairwise_cons]
      refine ⟨fun c hc => ?_, List.pairwise_cons.2 h⟩
      have h0 : a < d.1 := by
        have : ¬d.1 < a := hd
        omega
      rcases List.mem_cons.1 hc with h1 | hc
      · rw [h1]; exact h0
      · exact h0.trans (h.1 c hc)

/-- A write inside the address space keeps the canonical form. -/
theorem Memory.wf_put (m : Memory) (a : Nat) (b : Byte) (h : Memory.wf m = true) (ha : a < 4096) :
    Memory.wf (Memory.put m a b) = true := by
  unfold Memory.put
  split
  · exact Memory.wf_erase m a h
  · next hb =>
    have he := (Memory.wf_iff _).1 (Memory.wf_erase m a h)
    rw [Memory.wf_iff]
    refine ⟨Memory.pairwise_insert _ _ _ he.1 (Memory.erase_not_listed m a), fun c hc => ?_⟩
    rcases (Memory.mem_insert _ _ _ _).1 hc with rfl | hc
    · exact ⟨ha, hb⟩
    · exact he.2 c hc

/-- A block write inside the address space keeps the canonical form. -/
theorem Memory.wf_putAll (m : Memory) (a : Nat) (bytes : List Byte) (h : Memory.wf m = true)
    (ha : a + bytes.length ≤ 4096) : Memory.wf (Memory.putAll m a bytes) = true := by
  induction bytes generalizing m a with
  | nil => exact h
  | cons b rest ih =>
    simp only [List.length_cons] at ha
    exact ih _ _ (Memory.wf_put m a b h (by omega)) (by omega)

theorem Memory.outside_eq_false (a n : Nat) : Memory.outside a n = false ↔ n = 0 ∨ a + n ≤ 4096 := by
  simp only [Memory.outside, decide_eq_false_iff_not]
  omega

theorem Memory.outside_eq_true (a n : Nat) : Memory.outside a n = true ↔ 1 ≤ n ∧ 4096 < a + n := by
  simp only [Memory.outside, decide_eq_true_eq]
  omega

/-- All a block read can do (R53, R56). -/
theorem Memory.readBlock_cases (m : Memory) (a n : Nat) :
    (1 ≤ n ∧ 4096 < a + n ∧ Memory.readBlock m a n = .error .addressOutOfRange) ∨
    ((n = 0 ∨ a + n ≤ 4096) ∧
      Memory.readBlock m a n = .ok ((List.range n).map fun k => Memory.get m (a + k))) := by
  cases h : Memory.outside a n with
  | true => exact .inl ⟨((Memory.outside_eq_true _ _).1 h).1, ((Memory.outside_eq_true _ _).1 h).2, by simp [Memory.readBlock, h]⟩
  | false => exact .inr ⟨(Memory.outside_eq_false _ _).1 h, by simp [Memory.readBlock, h]⟩

/-- All a block write can do (R54, R56). -/
theorem Memory.writeBlock_cases (m : Memory) (a : Nat) (bytes : List Byte) :
    (1 ≤ bytes.length ∧ 4096 < a + bytes.length ∧ Memory.writeBlock m a bytes = .error .addressOutOfRange) ∨
    ((bytes.length = 0 ∨ a + bytes.length ≤ 4096) ∧
      Memory.writeBlock m a bytes = .ok (Memory.putAll m a bytes)) := by
  cases h : Memory.outside a bytes.length with
  | true => exact .inl ⟨((Memory.outside_eq_true _ _).1 h).1, ((Memory.outside_eq_true _ _).1 h).2, by simp [Memory.writeBlock, h]⟩
  | false => exact .inr ⟨(Memory.outside_eq_false _ _).1 h, by simp [Memory.writeBlock, h]⟩

/-- All the fetch's read can do (R52, R53). -/
theorem Memory.read16_cases (m : Memory) (a : Nat) :
    (0xFFF ≤ a ∧ Memory.read16 m a = .error .addressOutOfRange) ∨
    (a ≤ 0xFFE ∧ Memory.read16 m a = .ok (Memory.get m a ++ Memory.get m (a + 1))) := by
  cases h : Memory.outside a 2 with
  | true =>
    have := (Memory.outside_eq_true _ _).1 h
    exact .inl ⟨by omega, by simp [Memory.read16, h]⟩
  | false =>
    have := (Memory.outside_eq_false _ _).1 h
    exact .inr ⟨by omega, by simp [Memory.read16, h]⟩

/-- A store that is carried out keeps the canonical form. -/
theorem Memory.wf_writeBlock (m m' : Memory) (a : Nat) (bytes : List Byte) (h : Memory.wf m = true)
    (hw : Memory.writeBlock m a bytes = .ok m') : Memory.wf m' = true := by
  rcases Memory.writeBlock_cases m a bytes with ⟨_, _, he⟩ | ⟨hr, he⟩
  · rw [he] at hw; cases hw
  · rw [he] at hw
    cases hw
    rcases hr with hr | hr
    · rw [List.length_eq_zero_iff] at hr; subst hr; exact h
    · exact Memory.wf_putAll m a bytes h hr

theorem Memory.wf_reset : Memory.wf State.reset.mem = true := rfl

end Sys2Proof.Machine
end

