-- ==== Sys2Proof/Laws/Ops.lean ====
section
/-! SUPPORT. What each shared operation of Machine/ can do, said once: jumps, the stack, fetch, stores, the host's ticks, the
key priority and the step while waiting. -/

namespace Sys2Proof.Machine

@[simp] theorem finish_ok (t : State) : finish (.ok t) = .next t := rfl
@[simp] theorem finish_error (r : Fault) : finish (.error r) = .fault r := rfl
@[simp] theorem endStep_next (t : State) : endStep (.next t) = .next t.hostMoves := rfl
@[simp] theorem endStep_fault (r : Fault) : endStep (.fault r) = .fault r := rfl
@[simp] theorem endStep_refused (r : Refusal) : endStep (.refused r) = .refused r := rfl

theorem endStep_eq_next {o : Host.Outcome State Fault Refusal} {t : State} (h : endStep o = .next t) :
    ∃ u, o = .next u ∧ t = u.hostMoves := by
  cases o with
  | next u => exact ⟨u, rfl, by simpa using h.symm⟩
  | fault r => cases h
  | refused r => cases h

theorem endStep_eq_fault {o : Host.Outcome State Fault Refusal} {r : Fault} (h : endStep o = .fault r) :
    o = .fault r := by
  cases o with
  | next u => cases h
  | fault r => exact h
  | refused r => cases h

/-- All a jump can do (20_memory.md R61). -/
theorem State.jumpTo_cases (s : State) (t : Nat) :
    (0x200 ≤ t ∧ t ≤ 0xFFF ∧ s.jumpTo t = .ok (s.setPc (BitVec.ofNat 16 t))) ∨
    ((t < 0x200 ∨ 0xFFF < t) ∧ s.jumpTo t = .error .illegalJumpTarget) := by
  simp only [State.jumpTo, legalTarget, Config.progBase, Config.memSize, decide_eq_true_eq]
  by_cases h : 512 ≤ t ∧ t < 4096
  · exact .inl ⟨h.1, by omega, by rw [if_pos h]⟩
  · exact .inr ⟨by omega, by rw [if_neg h]⟩

/-- All a push can do (10_state.md R29). -/
theorem State.push_cases (s : State) (a : Word) :
    (∃ h : s.sp.val < 16, s.push a = .ok (s.setStack (s.stack.set s.sp.val a h) ⟨s.sp.val + 1, by omega⟩)) ∨
    (s.sp.val = 16 ∧ s.push a = .error .stackOverflow) := by
  by_cases h : s.sp.val < 16
  · exact .inl ⟨h, by simp [State.push, h]⟩
  · exact .inr ⟨by omega, by simp [State.push, h]⟩

/-- All a pop can do (10_state.md R29). -/
theorem State.pop_cases (s : State) :
    (∃ _h : 1 ≤ s.sp.val, s.pop = .ok (s.stack[s.sp.val - 1], s.setStack s.stack ⟨s.sp.val - 1, by omega⟩)) ∨
    (s.sp.val = 0 ∧ s.pop = .error .stackUnderflow) := by
  by_cases h : 1 ≤ s.sp.val
  · exact .inl ⟨h, by simp only [State.pop, dif_pos h]⟩
  · exact .inr ⟨by omega, by simp only [State.pop, dif_neg h]⟩

/-- All a fetch can do (50_engine_and_interface.md R206). -/
theorem State.fetch_cases (s : State) :
    (0xFFF ≤ s.pc.toNat ∧ s.fetch = .error .addressOutOfRange) ∨
    (s.pc.toNat ≤ 0xFFE ∧ s.fetch = .ok (Memory.get s.mem s.pc.toNat ++ Memory.get s.mem (s.pc.toNat + 1))) :=
  Memory.read16_cases s.mem s.pc.toNat

/-- All a store at `I` can do (46_timer_index_memory.md R185, R186). -/
theorem State.storeAtI_cases (s : State) (bytes : List Byte) (hb : 1 ≤ bytes.length) :
    (4096 < s.i.toNat + bytes.length ∧ s.storeAtI bytes = .fault .addressOutOfRange) ∨
    (s.i.toNat + bytes.length ≤ 4096 ∧
      s.storeAtI bytes = .next (s.setMem (Memory.putAll s.mem s.i.toNat bytes)).advance) := by
  rcases Memory.writeBlock_cases s.mem s.i.toNat bytes with ⟨_, h, he⟩ | ⟨h, he⟩
  · exact .inl ⟨h, by simp only [State.storeAtI, he, raise]⟩
  · exact .inr ⟨by omega, by simp only [State.storeAtI, he]⟩

@[simp] theorem length_decimalDigits (v : Byte) : (decimalDigits v).length = 3 := rfl

@[simp] theorem length_firstRegisters (v : Vector Byte 16) (x : Reg) : (firstRegisters v x).length = x.val + 1 := by
  simp only [firstRegisters, List.length_take, Vector.length_toList]
  omega

theorem getElem?_firstRegisters (v : Vector Byte 16) (x r : Reg) (h : r ≤ x) :
    (firstRegisters v x)[r.val]? = some v[r] := by
  have h1 : r.val < x.val + 1 := by have : r.val ≤ x.val := h; omega
  simp [firstRegisters, h1]

/-! ## Ticks (50_engine_and_interface.md R215) -/

@[simp] theorem countDown_zero_timer (n : Nat) : countDown n 0 = 0 := rfl

theorem countDown_toNat (n : Nat) (t : Byte) : (countDown n t).toNat = t.toNat - n := by
  unfold countDown
  split
  · next h => subst h; simp
  · rw [BitVec.toNat_ofNat, Nat.mod_eq_of_lt (by have := t.isLt; omega)]

theorem tickTimer_toNat (t : Byte) : (tickTimer t).toNat = t.toNat - 1 := by
  unfold tickTimer
  split
  · next h => subst h; simp
  · next h =>
    have h0 : t.toNat ≠ 0 := fun h0 => h (BitVec.eq_of_toNat_eq (by simpa using h0))
    have := t.isLt
    rw [BitVec.toNat_sub, show (1 : Byte).toNat = 1 from rfl]
    omega

/-- The timer after the host's `n` ticks is what `n` tick transactions leave. -/
theorem countDown_succ (n : Nat) (t : Byte) : countDown (n + 1) t = countDown n (tickTimer t) := by
  apply BitVec.eq_of_toNat_eq
  rw [countDown_toNat, countDown_toNat, tickTimer_toNat]
  omega

theorem countDown_eq_iterate (n : Nat) (t : Byte) : countDown n t = tickTimer^[n] t := by
  induction n generalizing t with
  | zero => exact BitVec.eq_of_toNat_eq (by rw [countDown_toNat]; simp)
  | succ n ih => rw [countDown_succ, ih, Function.iterate_succ_apply]

/-- The timers after `n` tick transactions. -/
theorem State.iterate_tick_dt (n : Nat) (s : State) : (State.tick^[n] s).dt = countDown n s.dt := by
  rw [countDown_eq_iterate]
  induction n generalizing s with
  | zero => rfl
  | succ n ih => simp only [Function.iterate_succ_apply, ih s.tick, State.tick_dt]

theorem State.iterate_tick_st (n : Nat) (s : State) : (State.tick^[n] s).st = countDown n s.st := by
  rw [countDown_eq_iterate]
  induction n generalizing s with
  | zero => rfl
  | succ n ih => simp only [Function.iterate_succ_apply, ih s.tick, State.tick_st]

/-! ## The key priority (45_keypad.md R173) -/

/-- All the priority can answer: no key, or the least set index. -/
theorem lowestKey_cases (keys : BitVec 16) :
    (keys = 0 ∧ lowestKey keys = none) ∨
    (∃ k, k < 16 ∧ keys.getLsbD k = true ∧ (∀ j, j < k → keys.getLsbD j = false) ∧ lowestKey keys = some k) := by
  cases h : lowestKey keys with
  | none =>
    refine .inl ⟨BitVec.eq_of_getLsbD_eq fun j hj => ?_, rfl⟩
    have := List.find?_eq_none.1 h j (by simpa using hj)
    simpa using this
  | some k =>
    obtain ⟨hk, as, bs, he, hall⟩ := List.find?_eq_some_iff_append.1 h
    have hk16 : k < 16 := by
      have : k ∈ List.range 16 := by rw [he]; simp
      simpa using this
    refine .inr ⟨k, hk16, by simpa using hk, fun j hj => ?_, rfl⟩
    have hlen : as.length = k := by
      have h1 : (List.range 16)[as.length]? = some k := by rw [he]; simp
      have h2 : as.length < 16 := by
        by_contra h2
        rw [List.getElem?_eq_none (by simpa using h2)] at h1
        cases h1
      rw [List.getElem?_eq_getElem (by simpa using h2)] at h1
      simpa using h1
    have h3 : as[j]? = some j := by
      have h1 : (List.range 16)[j]? = some j := by
        rw [List.getElem?_eq_getElem (by simp; omega)]; simp
      rw [he, List.getElem?_append_left (by omega)] at h1
      exact h1
    simpa using hall j (List.mem_of_getElem? h3)

/-- All a waiting step can do (R173). -/
theorem State.resumeWait_cases (s : State) :
    (newlyPressed s.keys s.keyPrev = 0 ∧
      s.resumeWait = (s.setWait true s.waitX s.keys).setOutcome .awaitingKey) ∨
    (∃ k, k < 16 ∧ (newlyPressed s.keys s.keyPrev).getLsbD k = true ∧
      (∀ j, j < k → (newlyPressed s.keys s.keyPrev).getLsbD j = false) ∧
      s.resumeWait =
        (((s.setV s.waitX (BitVec.ofNat 8 k)).setWait false s.waitX s.keyPrev).advance).setOutcome .continued) := by
  rcases lowestKey_cases (newlyPressed s.keys s.keyPrev) with ⟨h0, h⟩ | ⟨k, hk, h1, h2, h⟩
  · exact .inl ⟨h0, by simp only [State.resumeWait, h]⟩
  · exact .inr ⟨k, hk, h1, h2, by simp only [State.resumeWait, h]⟩

/-! ## The step (R205) -/

/-- All a step can do: resume the wait, fault in fetch or decode, or execute the decoded instruction. -/
theorem step_cases (s : State) :
    (s.waitValid = true ∧ step s = .next s.beginStep.resumeWait.hostMoves) ∨
    (s.waitValid = false ∧ 0xFFF ≤ s.pc.toNat ∧ step s = .fault .addressOutOfRange) ∨
    (∃ w e, s.waitValid = false ∧ s.pc.toNat ≤ 0xFFE ∧ s.fetch = .ok w ∧ decodeWord w = .error e ∧
      step s = .fault .unrecognizedOpcode) ∨
    (∃ w i, s.waitValid = false ∧ s.pc.toNat ≤ 0xFFE ∧ s.fetch = .ok w ∧ decodeWord w = .ok i ∧
      step s = endStep (exec i s.beginStep)) := by
  cases hw : s.waitValid with
  | true => exact .inl ⟨rfl, by simp [step, hw]⟩
  | false =>
    rcases s.fetch_cases with ⟨hp, hf⟩ | ⟨hp, hf⟩
    · exact .inr (.inl ⟨rfl, hp, by simp [step, hw, hf, raise]⟩)
    · cases hd : decodeWord (Memory.get s.mem s.pc.toNat ++ Memory.get s.mem (s.pc.toNat + 1)) with
      | error e => exact .inr (.inr (.inl ⟨_, e, rfl, hp, hf, hd, by simp [step, hw, hf, hd, raise]⟩))
      | ok i => exact .inr (.inr (.inr ⟨_, i, rfl, hp, hf, hd, by simp [step, hw, hf, hd]⟩))

end Sys2Proof.Machine
end

