-- ==== Sys2Proof/Laws/Exec.lean ====
section
/-! SUPPORT. What each instruction that can fault can do, said once: the fault under the condition of its row in the table of
faults, or the next state. The other instructions have one next state, which holds by unfolding. Then the one next state of
every instruction, the memory it leaves, and the fields after `reset`. -/

namespace Sys2Proof.Machine

theorem exec_ret_cases (s : State) :
    (s.sp.val = 0 ∧ exec .ret s = .fault .stackUnderflow) ∨
    (∃ _h : 1 ≤ s.sp.val, exec .ret s =
      .next ((s.setStack s.stack ⟨s.sp.val - 1, by omega⟩).setPc s.stack[s.sp.val - 1])) := by
  rcases s.pop_cases with ⟨h, h1⟩ | ⟨h, h1⟩
  · exact .inr ⟨h, by simp only [exec, execRet, h1]⟩
  · exact .inl ⟨h, by simp only [exec, execRet, h1, raise]⟩

theorem exec_jp_cases (nnn : Addr12) (s : State) :
    (nnn.toNat < 0x200 ∧ exec (.jp nnn) s = .fault .illegalJumpTarget) ∨
    (0x200 ≤ nnn.toNat ∧ exec (.jp nnn) s = .next (s.setPc (BitVec.ofNat 16 nnn.toNat))) := by
  have := nnn.isLt
  rcases s.jumpTo_cases nnn.toNat with ⟨h1, h2, h3⟩ | ⟨h1, h3⟩
  · exact .inr ⟨h1, by simp only [exec, execJp, h3, finish]⟩
  · exact .inl ⟨by omega, by simp only [exec, execJp, h3, finish, raise]⟩

theorem exec_call_cases (nnn : Addr12) (s : State) :
    (nnn.toNat < 0x200 ∧ exec (.call nnn) s = .fault .illegalJumpTarget) ∨
    (0x200 ≤ nnn.toNat ∧ s.sp.val = 16 ∧ exec (.call nnn) s = .fault .stackOverflow) ∨
    (∃ h : s.sp.val < 16, 0x200 ≤ nnn.toNat ∧ exec (.call nnn) s =
      .next ((s.setPc (BitVec.ofNat 16 nnn.toNat)).setStack (s.stack.set s.sp.val (s.pc + 2) h)
        ⟨s.sp.val + 1, by omega⟩)) := by
  have := nnn.isLt
  rcases s.jumpTo_cases nnn.toNat with ⟨h1, h2, h3⟩ | ⟨h1, h3⟩
  · rcases (s.setPc (BitVec.ofNat 16 nnn.toNat)).push_cases (s.pc + 2) with ⟨h4, h5⟩ | ⟨h4, h5⟩
    · exact .inr (.inr ⟨by simpa using h4, h1, by simp only [exec, execCall, h3, h5, finish]; rfl⟩)
    · exact .inr (.inl ⟨h1, by simpa using h4, by simp only [exec, execCall, h3, h5, finish, raise]⟩)
  · exact .inl ⟨by omega, by simp only [exec, execCall, h3, raise]⟩

theorem exec_jpV0_cases (nnn : Addr12) (s : State) :
    ((offsetTarget nnn s.v[(0 : Reg)] < 0x200 ∨ 0xFFF < offsetTarget nnn s.v[(0 : Reg)]) ∧
      exec (.jpV0 nnn) s = .fault .illegalJumpTarget) ∨
    (0x200 ≤ offsetTarget nnn s.v[(0 : Reg)] ∧ offsetTarget nnn s.v[(0 : Reg)] ≤ 0xFFF ∧
      exec (.jpV0 nnn) s = .next (s.setPc (BitVec.ofNat 16 (offsetTarget nnn s.v[(0 : Reg)])))) := by
  rcases s.jumpTo_cases (offsetTarget nnn s.v[(0 : Reg)]) with ⟨h1, h2, h3⟩ | ⟨h1, h3⟩
  · exact .inr ⟨h1, h2, by simp only [exec, execJpV0, h3, finish]⟩
  · exact .inl ⟨h1, by simp only [exec, execJpV0, h3, finish, raise]⟩

/-- The sprite bytes `DRW Vx, Vy, n` reads. -/
def spriteBytes (s : State) (n : Rows) : List Byte :=
  (List.range n.val).map fun k => Memory.get s.mem (s.i.toNat + k)

/-- What `DRW Vx, Vy, n` draws. -/
def drawn (s : State) (x y : Reg) (n : Rows) : Drawing :=
  drawRows (spriteColumn s.v[x]) (spriteRow s.v[y]) 0 (spriteBytes s n) ⟨s.fb, false⟩

theorem exec_drw_cases (x y : Reg) (n : Rows) (s : State) :
    (1 ≤ n.val ∧ 4096 < s.i.toNat + n.val ∧ exec (.drw x y n) s = .fault .addressOutOfRange) ∨
    ((n.val = 0 ∨ s.i.toNat + n.val ≤ 4096) ∧ exec (.drw x y n) s =
      .next ((s.setFb (drawn s x y n).fb).setV VF (flagByte (drawn s x y n).collision)).advance) := by
  rcases Memory.readBlock_cases s.mem s.i.toNat n.val with ⟨h0, h1, h2⟩ | ⟨h1, h2⟩
  · exact .inl ⟨h0, h1, by simp only [exec, execDrw, h2, raise]⟩
  · exact .inr ⟨h1, by simp only [exec, execDrw, h2, drawn, spriteBytes]⟩

theorem exec_ldBVx_cases (x : Reg) (s : State) :
    (4096 < s.i.toNat + 3 ∧ exec (.ldBVx x) s = .fault .addressOutOfRange) ∨
    (s.i.toNat + 3 ≤ 4096 ∧ exec (.ldBVx x) s =
      .next (s.setMem (Memory.putAll s.mem s.i.toNat (decimalDigits s.v[x]))).advance) := by
  have h := s.storeAtI_cases (decimalDigits s.v[x]) (by simp)
  rw [length_decimalDigits] at h
  exact h

theorem exec_ldMemVx_cases (x : Reg) (s : State) :
    (4096 < s.i.toNat + (x.val + 1) ∧ exec (.ldMemVx x) s = .fault .addressOutOfRange) ∨
    (s.i.toNat + (x.val + 1) ≤ 4096 ∧ exec (.ldMemVx x) s =
      .next (s.setMem (Memory.putAll s.mem s.i.toNat (firstRegisters s.v x))).advance) := by
  have h := s.storeAtI_cases (firstRegisters s.v x) (by simp)
  rw [length_firstRegisters] at h
  exact h

theorem exec_ldVxMem_cases (x : Reg) (s : State) :
    (4096 < s.i.toNat + (x.val + 1) ∧ exec (.ldVxMem x) s = .fault .addressOutOfRange) ∨
    (s.i.toNat + (x.val + 1) ≤ 4096 ∧ exec (.ldVxMem x) s = .next (s.setRegs (loadRegisters s.v
      ((List.range (x.val + 1)).map fun k => Memory.get s.mem (s.i.toNat + k)))).advance) := by
  rcases Memory.readBlock_cases s.mem s.i.toNat (x.val + 1) with ⟨h0, h1, h2⟩ | ⟨h1, h2⟩
  · exact .inl ⟨h1, by simp only [exec, execLdVxMem, h2, raise]⟩
  · exact .inr ⟨by omega, by simp only [exec, execLdVxMem, h2]⟩

/-- The one state an instruction can answer next (meaningful where it completes; elsewhere the state it started in). -/
def after (i : Instr) (s : State) : State :=
  match i with
  | .cls => (s.setFb blankFb).advance
  | .ret =>
    if h : 1 ≤ s.sp.val then (s.setStack s.stack ⟨s.sp.val - 1, by omega⟩).setPc s.stack[s.sp.val - 1] else s
  | .sys _ => s.advance
  | .jp nnn => s.setPc (BitVec.ofNat 16 nnn.toNat)
  | .call nnn =>
    if h : s.sp.val < 16 then
      (s.setPc (BitVec.ofNat 16 nnn.toNat)).setStack (s.stack.set s.sp.val (s.pc + 2) h) ⟨s.sp.val + 1, by omega⟩
    else s
  | .seImm x kk => s.skipIf (s.v[x] == kk)
  | .sneImm x kk => s.skipIf (s.v[x] != kk)
  | .seReg x y => s.skipIf (s.v[x] == s.v[y])
  | .ldImm x kk => (s.setV x kk).advance
  | .addImm x kk => (s.setV x (s.v[x] + kk)).advance
  | .ldReg x y => (s.setV x s.v[y]).advance
  | .orReg x y => (s.setV x (s.v[x] ||| s.v[y])).advance
  | .andReg x y => (s.setV x (s.v[x] &&& s.v[y])).advance
  | .xorReg x y => (s.setV x (s.v[x] ^^^ s.v[y])).advance
  | .addReg x y => (s.setResultThenFlag x (s.v[x] + s.v[y]) (carry s.v[x] s.v[y])).advance
  | .subReg x y => (s.setResultThenFlag x (s.v[x] - s.v[y]) (notBorrow s.v[x] s.v[y])).advance
  | .shr x _ => (s.setResultThenFlag x (s.v[x] >>> 1) (shiftedOutRight s.v[x])).advance
  | .subn x y => (s.setResultThenFlag x (s.v[y] - s.v[x]) (notBorrow s.v[y] s.v[x])).advance
  | .shl x _ => (s.setResultThenFlag x (s.v[x] <<< 1) (shiftedOutLeft s.v[x])).advance
  | .sneReg x y => s.skipIf (s.v[x] != s.v[y])
  | .ldI nnn => (s.setI (zext16 nnn)).advance
  | .jpV0 nnn => s.setPc (BitVec.ofNat 16 (offsetTarget nnn s.v[(0 : Reg)]))
  | .rnd x kk => (s.setV x (s.rnd &&& kk)).advance
  | .drw x y n => ((s.setFb (drawn s x y n).fb).setV VF (flagByte (drawn s x y n).collision)).advance
  | .skp x => s.skipIf (keyPressed s.keys s.v[x])
  | .sknp x => s.skipIf (!keyPressed s.keys s.v[x])
  | .ldVxDT x => (s.setV x s.dt).advance
  | .ldVxK x => (s.setWait true x s.keys).setOutcome .awaitingKey
  | .ldDTVx x => (s.setDT s.v[x]).advance
  | .ldSTVx x => (s.setST s.v[x]).advance
  | .addIVx x => (s.setI (s.i + (s.v[x]).setWidth 16)).advance
  | .ldFVx x => (s.setI (glyphAddress s.v[x])).advance
  | .ldBVx x => (s.setMem (Memory.putAll s.mem s.i.toNat (decimalDigits s.v[x]))).advance
  | .ldMemVx x => (s.setMem (Memory.putAll s.mem s.i.toNat (firstRegisters s.v x))).advance
  | .ldVxMem x => (s.setRegs (loadRegisters s.v
      ((List.range (x.val + 1)).map fun k => Memory.get s.mem (s.i.toNat + k)))).advance

/-- An instruction that completes answers `after`: statements about every next state go through this. -/
theorem eq_after_of_exec_next {i : Instr} {s t : State} (h : exec i s = .next t) : t = after i s := by
  cases i
  case ret => rcases exec_ret_cases s with ⟨_, e⟩ | ⟨hh, e⟩ <;> rw [e] at h <;> cases h; simp [after, dif_pos hh]
  case jp n => rcases exec_jp_cases n s with ⟨_, e⟩ | ⟨_, e⟩ <;> rw [e] at h <;> cases h; rfl
  case call n =>
    rcases exec_call_cases n s with ⟨_, e⟩ | ⟨_, _, e⟩ | ⟨hh, _, e⟩ <;> rw [e] at h <;> cases h
    simp [after, dif_pos hh]
  case jpV0 n => rcases exec_jpV0_cases n s with ⟨_, e⟩ | ⟨_, _, e⟩ <;> rw [e] at h <;> cases h; rfl
  case drw x y n => rcases exec_drw_cases x y n s with ⟨_, _, e⟩ | ⟨_, e⟩ <;> rw [e] at h <;> cases h; rfl
  case ldBVx x => rcases exec_ldBVx_cases x s with ⟨_, e⟩ | ⟨_, e⟩ <;> rw [e] at h <;> cases h; rfl
  case ldMemVx x => rcases exec_ldMemVx_cases x s with ⟨_, e⟩ | ⟨_, e⟩ <;> rw [e] at h <;> cases h; rfl
  case ldVxMem x => rcases exec_ldVxMem_cases x s with ⟨_, e⟩ | ⟨_, e⟩ <;> rw [e] at h <;> cases h; rfl
  all_goals (cases h; rfl)

theorem flagByte_eq_zero_or_one (b : Bool) : flagByte b = 0x00 ∨ flagByte b = 0x01 := by cases b <;> simp [flagByte]

/-- Registers above the last byte given are kept, the others take theirs. -/
theorem getElem_loadRegisters (v : Vector Byte 16) (bytes : List Byte) (r : Reg) :
    (loadRegisters v bytes)[r] = (bytes[r.val]?).getD v[r] := by
  simp [loadRegisters]

/-! ## Memory after an instruction, byte by byte -/

theorem get_putAll_decimalDigits (s : State) (x : Reg) (a : Nat) :
    Memory.get (Memory.putAll s.mem s.i.toNat (decimalDigits s.v[x])) a = byteAfterStore (.ldBVx x) s a := by
  rw [Memory.get_putAll]
  simp only [byteAfterStore]
  by_cases h : s.i.toNat ≤ a
  · obtain ⟨k, rfl⟩ := Nat.exists_eq_add_of_le h
    rw [if_pos h, Nat.add_sub_cancel_left]
    rcases k with _ | _ | _ | k
    · simp [decimalDigits]
    · simp [decimalDigits]
    · simp [decimalDigits]
    · rw [if_neg (by omega), if_neg (by omega), if_neg (by omega), List.getElem?_eq_none (by simp)]
      rfl
  · rw [if_neg h, if_neg (by omega), if_neg (by omega), if_neg (by omega)]

theorem get_putAll_firstRegisters (s : State) (x : Reg) (a : Nat) :
    Memory.get (Memory.putAll s.mem s.i.toNat (firstRegisters s.v x)) a = byteAfterStore (.ldMemVx x) s a := by
  rw [Memory.get_putAll]
  simp only [byteAfterStore]
  by_cases h : s.i.toNat ≤ a
  · by_cases hx : a ≤ s.i.toNat + x.val
    · have hr := getElem?_firstRegisters s.v x ⟨a - s.i.toNat, by omega⟩ (by show a - s.i.toNat ≤ x.val; omega)
      rw [if_pos h, dif_pos ⟨h, hx⟩, show (firstRegisters s.v x)[a - s.i.toNat]? = _ from hr]
      rfl
    · rw [if_pos h, dif_neg (by omega), List.getElem?_eq_none (by simp; omega)]
      rfl
  · rw [if_neg h, dif_neg (by omega)]

/-- Every byte of memory after an instruction that completes. -/
theorem get_mem_of_exec_next {i : Instr} {s t : State} (h : exec i s = .next t) (a : Nat) :
    Memory.get t.mem a = byteAfterStore i s a := by
  rw [eq_after_of_exec_next h]
  cases i
  case ldBVx x => exact get_putAll_decimalDigits s x a
  case ldMemVx x => exact get_putAll_firstRegisters s x a
  case ret => simp only [after]; split <;> rfl
  case call => simp only [after]; split <;> rfl
  all_goals rfl

/-! ## The `reset` transaction, field by field -/

@[simp] theorem State.restart_v (s : State) : s.restart.v = State.reset.v := rfl
@[simp] theorem State.restart_i (s : State) : s.restart.i = State.reset.i := rfl
@[simp] theorem State.restart_pc (s : State) : s.restart.pc = State.reset.pc := rfl
@[simp] theorem State.restart_stack (s : State) : s.restart.stack = State.reset.stack := rfl
@[simp] theorem State.restart_sp (s : State) : s.restart.sp = State.reset.sp := rfl
@[simp] theorem State.restart_dt (s : State) : s.restart.dt = State.reset.dt := rfl
@[simp] theorem State.restart_st (s : State) : s.restart.st = State.reset.st := rfl
@[simp] theorem State.restart_fb (s : State) : s.restart.fb = State.reset.fb := rfl
@[simp] theorem State.restart_mem (s : State) : s.restart.mem = State.reset.mem := rfl
@[simp] theorem State.restart_waitValid (s : State) : s.restart.waitValid = State.reset.waitValid := rfl
@[simp] theorem State.restart_waitX (s : State) : s.restart.waitX = State.reset.waitX := rfl
@[simp] theorem State.restart_keyPrev (s : State) : s.restart.keyPrev = State.reset.keyPrev := rfl
@[simp] theorem State.restart_booted (s : State) : s.restart.booted = State.reset.booted := rfl
@[simp] theorem State.restart_outcome (s : State) : s.restart.outcome = State.reset.outcome := rfl
@[simp] theorem State.restart_script (s : State) : s.restart.script = s.script := rfl
@[simp] theorem State.restart_turn (s : State) : s.restart.turn = s.turn := rfl

end Sys2Proof.Machine
end

