-- ==== Sys2Proof/Laws/PerInstr.lean ====
section
/-! SUPPORT. One law per instruction: the bits the opcode table fixes for its row (its columns mask and match) stand in the
encoded word, whatever the operands. -/

namespace Sys2Proof.Laws.FixedBits

/-- The fixed bits of an instruction's row of spec/opcode_table.json, as a mask and the value under it. -/
def row (i : Instr) : Word × Word :=
  match i with
  | .cls => (0xFFFF, 0x00E0)
  | .ret => (0xFFFF, 0x00EE)
  | .sys _ => (0xF000, 0x0000)
  | .jp _ => (0xF000, 0x1000)
  | .call _ => (0xF000, 0x2000)
  | .seImm _ _ => (0xF000, 0x3000)
  | .sneImm _ _ => (0xF000, 0x4000)
  | .seReg _ _ => (0xF00F, 0x5000)
  | .ldImm _ _ => (0xF000, 0x6000)
  | .addImm _ _ => (0xF000, 0x7000)
  | .ldReg _ _ => (0xF00F, 0x8000)
  | .orReg _ _ => (0xF00F, 0x8001)
  | .andReg _ _ => (0xF00F, 0x8002)
  | .xorReg _ _ => (0xF00F, 0x8003)
  | .addReg _ _ => (0xF00F, 0x8004)
  | .subReg _ _ => (0xF00F, 0x8005)
  | .shr _ _ => (0xF00F, 0x8006)
  | .subn _ _ => (0xF00F, 0x8007)
  | .shl _ _ => (0xF00F, 0x800E)
  | .sneReg _ _ => (0xF00F, 0x9000)
  | .ldI _ => (0xF000, 0xA000)
  | .jpV0 _ => (0xF000, 0xB000)
  | .rnd _ _ => (0xF000, 0xC000)
  | .drw _ _ _ => (0xF000, 0xD000)
  | .skp _ => (0xF0FF, 0xE09E)
  | .sknp _ => (0xF0FF, 0xE0A1)
  | .ldVxDT _ => (0xF0FF, 0xF007)
  | .ldVxK _ => (0xF0FF, 0xF00A)
  | .ldDTVx _ => (0xF0FF, 0xF015)
  | .ldSTVx _ => (0xF0FF, 0xF018)
  | .addIVx _ => (0xF0FF, 0xF01E)
  | .ldFVx _ => (0xF0FF, 0xF029)
  | .ldBVx _ => (0xF0FF, 0xF033)
  | .ldMemVx _ => (0xF0FF, 0xF055)
  | .ldVxMem _ => (0xF0FF, 0xF065)

/-- The encoded word has the fixed bits of its row. -/
def Statement (i : Instr) : Prop := encode i &&& (row i).1 = (row i).2

theorem and_nibbles (a b c d : BitVec 4) (m : Word) :
    (a ++ b ++ c ++ d : Word) &&& m =
      (a &&& m.extractLsb' 12 4) ++ (b &&& m.extractLsb' 8 4) ++ (c &&& m.extractLsb' 4 4) ++ (d &&& m.extractLsb' 0 4) := by
  apply BitVec.eq_of_getLsbD_eq
  intro k hk
  simp only [BitVec.getLsbD_append, BitVec.getLsbD_and, BitVec.getLsbD_extractLsb']
  grind

theorem encNNN_fixed (op : BitVec 4) (nnn : Addr12) : encNNN op nnn &&& 0xF000 = encNNN op 0x000 := by
  obtain ⟨b, c, d, rfl⟩ := addr12_eq_nibbles nnn
  rw [encNNN_nibbles, and_nibbles, show (0x000 : Addr12) = 0#4 ++ 0#4 ++ 0#4 from rfl, encNNN_nibbles]
  simp

theorem encXKK_fixed (op : BitVec 4) (x : Reg) (kk : Byte) : encXKK op x kk &&& 0xF000 = encXKK op 0 0x00 := by
  rw [encXKK_eq_nibbles, and_nibbles]
  simp [encXKK_eq_nibbles]

theorem encXSS_fixed (op : BitVec 4) (x : Reg) (ss : Byte) : encXKK op x ss &&& 0xF0FF = encXKK op 0 ss := by
  rw [encXKK_eq_nibbles, and_nibbles]
  simp [encXKK_eq_nibbles]

theorem encXYS_fixed (op : BitVec 4) (x y s : Fin 16) : encXYN op x y s &&& 0xF00F = encXYN op 0 0 s := by
  rw [encXYN_nibbles, and_nibbles]
  simp [encXYN]

theorem encXYN_fixed (op : BitVec 4) (x y n : Fin 16) : encXYN op x y n &&& 0xF000 = encXYN op 0 0 0 := by
  rw [encXYN_nibbles, and_nibbles]
  simp [encXYN]

theorem cls : Statement .cls := rfl
theorem ret : Statement .ret := rfl
theorem sys (nnn : Addr12) : Statement (.sys nnn) := encNNN_fixed _ nnn
theorem jp (nnn : Addr12) : Statement (.jp nnn) := encNNN_fixed _ nnn
theorem call (nnn : Addr12) : Statement (.call nnn) := encNNN_fixed _ nnn
theorem seImm (x : Reg) (kk : Byte) : Statement (.seImm x kk) := encXKK_fixed _ x kk
theorem sneImm (x : Reg) (kk : Byte) : Statement (.sneImm x kk) := encXKK_fixed _ x kk
theorem seReg (x : Reg) (y : Reg) : Statement (.seReg x y) := encXYS_fixed _ x y _
theorem ldImm (x : Reg) (kk : Byte) : Statement (.ldImm x kk) := encXKK_fixed _ x kk
theorem addImm (x : Reg) (kk : Byte) : Statement (.addImm x kk) := encXKK_fixed _ x kk
theorem ldReg (x : Reg) (y : Reg) : Statement (.ldReg x y) := encXYS_fixed _ x y _
theorem orReg (x : Reg) (y : Reg) : Statement (.orReg x y) := encXYS_fixed _ x y _
theorem andReg (x : Reg) (y : Reg) : Statement (.andReg x y) := encXYS_fixed _ x y _
theorem xorReg (x : Reg) (y : Reg) : Statement (.xorReg x y) := encXYS_fixed _ x y _
theorem addReg (x : Reg) (y : Reg) : Statement (.addReg x y) := encXYS_fixed _ x y _
theorem subReg (x : Reg) (y : Reg) : Statement (.subReg x y) := encXYS_fixed _ x y _
theorem shr (x : Reg) (y : Reg) : Statement (.shr x y) := encXYS_fixed _ x y _
theorem subn (x : Reg) (y : Reg) : Statement (.subn x y) := encXYS_fixed _ x y _
theorem shl (x : Reg) (y : Reg) : Statement (.shl x y) := encXYS_fixed _ x y _
theorem sneReg (x : Reg) (y : Reg) : Statement (.sneReg x y) := encXYS_fixed _ x y _
theorem ldI (nnn : Addr12) : Statement (.ldI nnn) := encNNN_fixed _ nnn
theorem jpV0 (nnn : Addr12) : Statement (.jpV0 nnn) := encNNN_fixed _ nnn
theorem rnd (x : Reg) (kk : Byte) : Statement (.rnd x kk) := encXKK_fixed _ x kk
theorem drw (x : Reg) (y : Reg) (n : Rows) : Statement (.drw x y n) := encXYN_fixed _ x y n
theorem skp (x : Reg) : Statement (.skp x) := encXSS_fixed _ x _
theorem sknp (x : Reg) : Statement (.sknp x) := encXSS_fixed _ x _
theorem ldVxDT (x : Reg) : Statement (.ldVxDT x) := encXSS_fixed _ x _
theorem ldVxK (x : Reg) : Statement (.ldVxK x) := encXSS_fixed _ x _
theorem ldDTVx (x : Reg) : Statement (.ldDTVx x) := encXSS_fixed _ x _
theorem ldSTVx (x : Reg) : Statement (.ldSTVx x) := encXSS_fixed _ x _
theorem addIVx (x : Reg) : Statement (.addIVx x) := encXSS_fixed _ x _
theorem ldFVx (x : Reg) : Statement (.ldFVx x) := encXSS_fixed _ x _
theorem ldBVx (x : Reg) : Statement (.ldBVx x) := encXSS_fixed _ x _
theorem ldMemVx (x : Reg) : Statement (.ldMemVx x) := encXSS_fixed _ x _
theorem ldVxMem (x : Reg) : Statement (.ldVxMem x) := encXSS_fixed _ x _

end Sys2Proof.Laws.FixedBits
end

