-- ==== Sys2Proof/Tests/Slice0.lean ====
section
/-! SUPPORT. The model's own tests. Expected values are the spec's: words from 30_encoding.md R85, step tests from the vectors
X-… and programs of 95_test_vectors.md (named in each comment). Then a witness for the hypotheses of each statement. -/

namespace Sys2Proof.Tests

open Sys2Proof.Machine

/-! ## Helpers -/

/-- The reset state with the word `w` at `pc`, one host turn of the given inputs, and the given registers preset. -/
def bench (pc : Nat) (w : Word) (regs : List (Reg × Byte)) (turn : HostTurn := ⟨0x0000, 0x00, 0⟩) : State :=
  { State.reset with
    pc := BitVec.ofNat 16 pc
    v := regs.foldl (fun v p => v.set p.1.val p.2 p.1.isLt) State.reset.v
    mem := Memory.putAll [] pc (wordBytes w)
    script := [turn] }

/-- The step completes in a state that passes the check. -/
def completes (s : State) (check : State → Bool) : Bool :=
  match step s with
  | .next t => check t
  | .fault _ | .refused _ => false

/-- The step faults with this reason. -/
def faults (s : State) (reason : Fault) : Bool :=
  match step s with
  | .fault r => r == reason
  | .next _ | .refused _ => false

/-! ## Well-formedness: the one check of WellFormed.lean refuses `SYS 0x0E0` and `SYS 0x0EE` (30_encoding.md R90) -/

theorem test_sys_at_cls_word_ill_formed : (Instr.sys 0x0E0).wellFormed = false := by decide
theorem test_sys_at_ret_word_ill_formed : (Instr.sys 0x0EE).wellFormed = false := by decide
theorem test_sys_beside_them_well_formed :
    (Instr.sys 0x0E1).wellFormed = true ∧ (Instr.sys 0x0EF).wellFormed = true ∧ (Instr.sys 0xFFF).wellFormed = true := by
  decide

/-! ## Decoding: a word of every constructor, written from its row of R85 -/

theorem test_decode_cls : decodeWord 0x00E0 = .ok (.cls) ∧ encode (.cls) = 0x00E0 := by decide
theorem test_decode_ret : decodeWord 0x00EE = .ok (.ret) ∧ encode (.ret) = 0x00EE := by decide
theorem test_decode_sys : decodeWord 0x0123 = .ok (.sys 0x123) ∧ encode (.sys 0x123) = 0x0123 := by decide
theorem test_decode_jp : decodeWord 0x1ABC = .ok (.jp 0xABC) ∧ encode (.jp 0xABC) = 0x1ABC := by decide
theorem test_decode_call : decodeWord 0x2345 = .ok (.call 0x345) ∧ encode (.call 0x345) = 0x2345 := by decide
theorem test_decode_seImm : decodeWord 0x332A = .ok (.seImm 3 0x2A) ∧ encode (.seImm 3 0x2A) = 0x332A := by decide
theorem test_decode_sneImm : decodeWord 0x45F1 = .ok (.sneImm 5 0xF1) ∧ encode (.sneImm 5 0xF1) = 0x45F1 := by decide
theorem test_decode_seReg : decodeWord 0x5120 = .ok (.seReg 1 2) ∧ encode (.seReg 1 2) = 0x5120 := by decide
theorem test_decode_ldImm : decodeWord 0x6AFF = .ok (.ldImm 10 0xFF) ∧ encode (.ldImm 10 0xFF) = 0x6AFF := by decide
theorem test_decode_addImm : decodeWord 0x7F03 = .ok (.addImm 15 0x03) ∧ encode (.addImm 15 0x03) = 0x7F03 := by decide
theorem test_decode_ldReg : decodeWord 0x8120 = .ok (.ldReg 1 2) ∧ encode (.ldReg 1 2) = 0x8120 := by decide
theorem test_decode_orReg : decodeWord 0x8341 = .ok (.orReg 3 4) ∧ encode (.orReg 3 4) = 0x8341 := by decide
theorem test_decode_andReg : decodeWord 0x8562 = .ok (.andReg 5 6) ∧ encode (.andReg 5 6) = 0x8562 := by decide
theorem test_decode_xorReg : decodeWord 0x8783 = .ok (.xorReg 7 8) ∧ encode (.xorReg 7 8) = 0x8783 := by decide
theorem test_decode_addReg : decodeWord 0x89A4 = .ok (.addReg 9 10) ∧ encode (.addReg 9 10) = 0x89A4 := by decide
theorem test_decode_subReg : decodeWord 0x8BC5 = .ok (.subReg 11 12) ∧ encode (.subReg 11 12) = 0x8BC5 := by decide
theorem test_decode_shr : decodeWord 0x8DE6 = .ok (.shr 13 14) ∧ encode (.shr 13 14) = 0x8DE6 := by decide
theorem test_decode_subn : decodeWord 0x8F17 = .ok (.subn 15 1) ∧ encode (.subn 15 1) = 0x8F17 := by decide
theorem test_decode_shl : decodeWord 0x802E = .ok (.shl 0 2) ∧ encode (.shl 0 2) = 0x802E := by decide
theorem test_decode_sneReg : decodeWord 0x9AB0 = .ok (.sneReg 10 11) ∧ encode (.sneReg 10 11) = 0x9AB0 := by decide
theorem test_decode_ldI : decodeWord 0xAFFF = .ok (.ldI 0xFFF) ∧ encode (.ldI 0xFFF) = 0xAFFF := by decide
theorem test_decode_jpV0 : decodeWord 0xB1F0 = .ok (.jpV0 0x1F0) ∧ encode (.jpV0 0x1F0) = 0xB1F0 := by decide
theorem test_decode_rnd : decodeWord 0xC10F = .ok (.rnd 1 0x0F) ∧ encode (.rnd 1 0x0F) = 0xC10F := by decide
theorem test_decode_drw : decodeWord 0xD125 = .ok (.drw 1 2 5) ∧ encode (.drw 1 2 5) = 0xD125 := by decide
theorem test_decode_skp : decodeWord 0xEF9E = .ok (.skp 15) ∧ encode (.skp 15) = 0xEF9E := by decide
theorem test_decode_sknp : decodeWord 0xE0A1 = .ok (.sknp 0) ∧ encode (.sknp 0) = 0xE0A1 := by decide
theorem test_decode_ldVxDT : decodeWord 0xF207 = .ok (.ldVxDT 2) ∧ encode (.ldVxDT 2) = 0xF207 := by decide
theorem test_decode_ldVxK : decodeWord 0xF30A = .ok (.ldVxK 3) ∧ encode (.ldVxK 3) = 0xF30A := by decide
theorem test_decode_ldDTVx : decodeWord 0xF415 = .ok (.ldDTVx 4) ∧ encode (.ldDTVx 4) = 0xF415 := by decide
theorem test_decode_ldSTVx : decodeWord 0xF518 = .ok (.ldSTVx 5) ∧ encode (.ldSTVx 5) = 0xF518 := by decide
theorem test_decode_addIVx : decodeWord 0xF61E = .ok (.addIVx 6) ∧ encode (.addIVx 6) = 0xF61E := by decide
theorem test_decode_ldFVx : decodeWord 0xF729 = .ok (.ldFVx 7) ∧ encode (.ldFVx 7) = 0xF729 := by decide
theorem test_decode_ldBVx : decodeWord 0xF833 = .ok (.ldBVx 8) ∧ encode (.ldBVx 8) = 0xF833 := by decide
theorem test_decode_ldMemVx : decodeWord 0xF955 = .ok (.ldMemVx 9) ∧ encode (.ldMemVx 9) = 0xF955 := by decide
theorem test_decode_ldVxMem : decodeWord 0xFA65 = .ok (.ldVxMem 10) ∧ encode (.ldVxMem 10) = 0xFA65 := by decide

/-- The unrecognized words X-DE-1 to X-DE-14. -/
theorem test_decode_unrecognized :
    ([0x5121, 0x512F, 0x8128, 0x812D, 0x812F, 0x9121, 0xE000, 0xE19F, 0xE1A0, 0xF000, 0xF175, 0xF185, 0xF11F, 0xFFFF] :
      List Word).all (fun w => decide (decodeWord w = .error .unrecognizedOpcode)) = true := by decide

/-- Recognized at the boundaries (95_test_vectors.md 2.1). -/
theorem test_decode_boundaries :
    decodeWord 0x0000 = .ok (.sys 0x000) ∧ decodeWord 0x00E1 = .ok (.sys 0x0E1) ∧ decodeWord 0x00EF = .ok (.sys 0x0EF) ∧
    decodeWord 0x0FFF = .ok (.sys 0xFFF) ∧ decodeWord 0xD000 = .ok (.drw 0 0 0) ∧ decodeWord 0xFF65 = .ok (.ldVxMem 15) := by
  decide

/-- The host's numbering: one 16-bit word, first byte high (X-IF-5); short bits are the low ones. -/
theorem test_decode_table_word :
    decodeTableWord 16 0x1234 = some (.jp 0x234) ∧ decodeTableWord 16 0xFFFF = none ∧
    decodeBytes [0x12] = .error .fewerThanTwoBytes := by decide

/-- A word placed by `withFetchWord` is the one the next step runs. -/
theorem test_with_fetch_word :
    completes (State.reset.withFetchWord 16 0x6AFF) (fun t => t.v[(10 : Reg)] == 0xFF && t.pc == 0x202) = true ∧
    completes (({ State.reset with pc := 0x0FFF, waitValid := true }).withFetchWord 16 0x1ABC) (fun t => t.pc == 0xABC) =
      true := by decide

/-! ## One step of each instruction -/

/-- X-DR-1, S8: every pixel set before, VF kept. -/
theorem test_cls :
    completes ({ bench 0x200 0x00E0 [(15, 0x01)] with fb := Vector.replicate 32 (Vector.replicate 64 true) })
      (fun t => !t.isSet 0 0 && !t.isSet 63 31 && !t.isSet 31 15 && t.v[VF] == 0x01 && t.pc == 0x202) = true := by decide
/-- X-IF-6: the last word of memory. -/
theorem test_cls_last_word :
    completes (bench 0xFFE 0x00E0 [])
      (fun t => t.pc == 0x1000) = true := by decide
/-- X-CT-2. -/
theorem test_ret :
    completes ({ bench 0x300 0x00EE [] with sp := 1, stack := State.reset.stack.set 0 0x0206 })
      (fun t => t.pc == 0x206 && t.sp == 0) = true := by decide
/-- X-CT-3. -/
theorem test_ret_empty :
    faults (bench 0x200 0x00EE []) .stackUnderflow = true := by decide
/-- X-CT-1. -/
theorem test_sys :
    completes (bench 0x200 0x0123 [])
      (fun t => t.pc == 0x202 && t.booted && t.outcome == some .continued) = true := by decide
/-- X-CT-7: the highest target. -/
theorem test_jp :
    completes (bench 0x200 0x1FFF [])
      (fun t => t.pc == 0xFFF) = true := by decide
/-- X-CT-5, S6. -/
theorem test_jp_low :
    faults (bench 0x200 0x11FF []) .illegalJumpTarget = true := by decide
/-- X-CT-9. -/
theorem test_call_sixteenth :
    completes ({ bench 0x400 0x2500 [] with sp := 15 })
      (fun t => t.stack[15] == 0x0402 && t.sp == 16 && t.pc == 0x500) = true := by decide
/-- X-CT-11: the target check comes first. -/
theorem test_call_order :
    faults ({ bench 0x400 0x2100 [] with sp := 16 }) .illegalJumpTarget = true := by decide
/-- X-SK-1. -/
theorem test_se_imm :
    completes (bench 0x200 0x332A [(3, 0x2A)])
      (fun t => t.pc == 0x204) = true := by decide
/-- X-SK-12: the skip passes the end of memory. -/
theorem test_se_imm_last_word :
    completes (bench 0xFFE 0x3000 [])
      (fun t => t.pc == 0x1002) = true := by decide
/-- X-SK-4. -/
theorem test_sne_imm :
    completes (bench 0x200 0x432A [(3, 0x2A)])
      (fun t => t.pc == 0x202) = true := by decide
/-- X-SK-5. -/
theorem test_sne_imm_skips :
    completes (bench 0x200 0x4300 [(3, 0x2A)])
      (fun t => t.pc == 0x204) = true := by decide
/-- X-SK-6. -/
theorem test_se_reg :
    completes (bench 0x200 0x5120 [(1, 7), (2, 7)])
      (fun t => t.pc == 0x204) = true := by decide
/-- X-SK-7. -/
theorem test_se_reg_differs :
    completes (bench 0x200 0x5120 [(1, 7), (2, 8)])
      (fun t => t.pc == 0x202) = true := by decide
/-- X-IF-9: at an odd address. -/
theorem test_ld_imm :
    completes (bench 0x201 0x6007 [])
      (fun t => t.v[(0 : Reg)] == 0x07 && t.pc == 0x203) = true := by decide
/-- X-LI-2: VF as an ordinary register. -/
theorem test_ld_imm_vf :
    completes (bench 0x200 0x6F00 [(15, 0x01)])
      (fun t => t.v[VF] == 0x00) = true := by decide
/-- X-LI-4: no carry is reported. -/
theorem test_add_imm_wraps :
    completes (bench 0x200 0x7001 [(0, 0xFF)])
      (fun t => t.v[(0 : Reg)] == 0x00 && t.v[VF] == 0x00) = true := by decide
/-- X-LI-6. -/
theorem test_add_imm_vf :
    completes (bench 0x200 0x7F03 [(15, 0xFE)])
      (fun t => t.v[VF] == 0x01) = true := by decide
/-- X-AL-1. -/
theorem test_ld_reg :
    completes (bench 0x200 0x8120 [(1, 0x12), (2, 0x34), (15, 0x55)])
      (fun t => t.v[(1 : Reg)] == 0x34 && t.v[(2 : Reg)] == 0x34 && t.v[VF] == 0x55) = true := by decide
/-- X-AL-2: VF kept. -/
theorem test_or :
    completes (bench 0x200 0x8121 [(1, 0xF0), (2, 0x0F), (15, 0x55)])
      (fun t => t.v[(1 : Reg)] == 0xFF && t.v[VF] == 0x55) = true := by decide
/-- X-AL-3. -/
theorem test_and :
    completes (bench 0x200 0x8122 [(1, 0xF0), (2, 0x3C), (15, 0x01)])
      (fun t => t.v[(1 : Reg)] == 0x30 && t.v[VF] == 0x01) = true := by decide
/-- X-AL-4. -/
theorem test_xor :
    completes (bench 0x200 0x8123 [(1, 0xF0), (2, 0x3C), (15, 0x01)])
      (fun t => t.v[(1 : Reg)] == 0xCC && t.v[VF] == 0x01) = true := by decide
/-- X-AL-7: a sum of exactly 256. -/
theorem test_add :
    completes (bench 0x200 0x8124 [(1, 0xFF), (2, 0x01)])
      (fun t => t.v[(1 : Reg)] == 0x00 && t.v[VF] == 0x01) = true := by decide
/-- X-AL-13: X = VF, the flag wins. -/
theorem test_add_vf :
    completes (bench 0x200 0x8F14 [(15, 0x10), (1, 0x20)])
      (fun t => t.v[VF] == 0x00) = true := by decide
/-- X-AL-16. -/
theorem test_sub_borrow :
    completes (bench 0x200 0x8125 [(1, 0x05), (2, 0x0A), (15, 0x01)])
      (fun t => t.v[(1 : Reg)] == 0xFB && t.v[VF] == 0x00) = true := by decide
/-- X-AL-22. -/
theorem test_sub_y_is_vf :
    completes (bench 0x200 0x81F5 [(1, 0x03), (15, 0x05)])
      (fun t => t.v[(1 : Reg)] == 0xFE && t.v[VF] == 0x00) = true := by decide
/-- X-AL-23: Y ignored. -/
theorem test_shr :
    completes (bench 0x200 0x8126 [(1, 0x05), (2, 0xFF)])
      (fun t => t.v[(1 : Reg)] == 0x02 && t.v[VF] == 0x01 && t.v[(2 : Reg)] == 0xFF) = true := by decide
/-- X-AL-29. -/
theorem test_shr_vf :
    completes (bench 0x200 0x8F06 [(15, 0x02)])
      (fun t => t.v[VF] == 0x00) = true := by decide
/-- X-AL-30. -/
theorem test_subn :
    completes (bench 0x200 0x8127 [(1, 0x05), (2, 0x0A)])
      (fun t => t.v[(1 : Reg)] == 0x05 && t.v[VF] == 0x01) = true := by decide
/-- X-AL-31. -/
theorem test_subn_borrow :
    completes (bench 0x200 0x8127 [(1, 0x0A), (2, 0x05), (15, 0x01)])
      (fun t => t.v[(1 : Reg)] == 0xFB && t.v[VF] == 0x00) = true := by decide
/-- X-AL-34: Y ignored. -/
theorem test_shl :
    completes (bench 0x200 0x812E [(1, 0x81)])
      (fun t => t.v[(1 : Reg)] == 0x02 && t.v[VF] == 0x01 && t.v[(2 : Reg)] == 0x00) = true := by decide
/-- X-AL-39. -/
theorem test_shl_vf :
    completes (bench 0x200 0x8F0E [(15, 0x40)])
      (fun t => t.v[VF] == 0x00) = true := by decide
/-- X-SK-9. -/
theorem test_sne_reg :
    completes (bench 0x200 0x9120 [(1, 7), (2, 8)])
      (fun t => t.pc == 0x204) = true := by decide
/-- X-SK-11: X = Y never skips. -/
theorem test_sne_reg_same :
    completes (bench 0x200 0x9440 [])
      (fun t => t.pc == 0x202) = true := by decide
/-- X-LI-8: the high bits are cleared. -/
theorem test_ld_i :
    completes ({ bench 0x200 0xA000 [] with i := 0x1234 })
      (fun t => t.i == 0x0000) = true := by decide
/-- X-CT-13. -/
theorem test_jp_v0 :
    completes (bench 0x200 0xB300 [(0, 0x10)])
      (fun t => t.pc == 0x310) = true := by decide
/-- X-CT-16. -/
theorem test_jp_v0_not_reduced :
    faults (bench 0x200 0xBFFF [(0, 0x02)]) .illegalJumpTarget = true := by decide
/-- X-LI-9. -/
theorem test_rnd :
    completes (bench 0x200 0xC10F [] ⟨0x0000, 0xA7, 0⟩)
      (fun t => t.v[(1 : Reg)] == 0x07) = true := by decide
/-- X-DR-5 and program P4: wraps on both edges. -/
theorem test_drw_wraps :
    completes (bench 0x200 0xD125 [(1, 0x3E), (2, 0x1E)])
      (fun t => t.v[VF] == 0x00 && t.isSet 63 30 && !t.isSet 63 31 && t.isSet 0 2 && !t.isSet 2 30) = true := by decide
/-- X-DR-8. -/
theorem test_drw_past_the_end :
    faults ({ bench 0x200 0xD123 [] with i := 0xFFE }) .addressOutOfRange = true := by decide
/-- X-DR-13 with one pixel. -/
theorem test_drw_collides :
    completes ({ bench 0x200 0xD121 [(1, 0x40), (2, 0x20)] with
      i := 0x0000, fb := State.reset.fb.set 0 (State.reset.fb[0].set 0 true) })
      (fun t => t.v[VF] == 0x01 && !t.isSet 0 0 && t.isSet 1 0 && t.isSet 3 0 && !t.isSet 4 0) = true := by decide
/-- X-KP-8. -/
theorem test_skp :
    completes (bench 0x200 0xE19E [(1, 0x0F)] ⟨0x8000, 0x00, 0⟩)
      (fun t => t.pc == 0x204) = true := by decide
/-- X-KP-6. -/
theorem test_skp_no_such_key :
    completes (bench 0x200 0xE19E [(1, 0x15)] ⟨0xFFFF, 0x00, 0⟩)
      (fun t => t.pc == 0x202) = true := by decide
/-- X-KP-4. -/
theorem test_sknp :
    completes (bench 0x200 0xE1A1 [(1, 0x05)] ⟨0x0020, 0x00, 0⟩)
      (fun t => t.pc == 0x202) = true := by decide
/-- X-KP-7. -/
theorem test_sknp_no_such_key :
    completes (bench 0x200 0xE1A1 [(1, 0x15)] ⟨0xFFFF, 0x00, 0⟩)
      (fun t => t.pc == 0x204) = true := by decide
/-- X-TM-1, and the turn has one tick (R215). -/
theorem test_ld_vx_dt :
    completes ({ bench 0x200 0xF207 [] ⟨0x0000, 0x00, 1⟩ with dt := 0x3C })
      (fun t => t.v[(2 : Reg)] == 0x3C && t.dt == 0x3B) = true := by decide
/-- X-KP-12. -/
theorem test_ld_vx_k :
    completes (bench 0x200 0xF30A [] ⟨0x0020, 0x00, 0⟩)
      (fun t => t.outcome == some .awaitingKey && t.waitValid && t.waitX == 3 && t.keyPrev == 0x0020 && t.pc == 0x200) = true := by decide
/-- X-KP-17: only the new key counts. -/
theorem test_wait_completes :
    completes ({ bench 0x200 0xFFFF [] ⟨0x0021, 0x00, 0⟩ with waitValid := true, waitX := 3, keyPrev := 0x0020 })
      (fun t => t.v[(3 : Reg)] == 0x00 && !t.waitValid && t.pc == 0x202 && t.outcome == some .continued) = true := by decide
/-- X-KP-18: a waiting step does not fetch. -/
theorem test_wait_goes_on :
    completes ({ bench 0x200 0xFFFF [] with waitValid := true, keyPrev := 0x0020 })
      (fun t => t.waitValid && t.keyPrev == 0x0000 && t.pc == 0x200) = true := by decide
/-- X-TM-2. -/
theorem test_ld_dt_vx :
    completes (bench 0x200 0xF215 [(2, 0x3C)])
      (fun t => t.dt == 0x3C) = true := by decide
/-- X-TM-3. -/
theorem test_ld_st_vx :
    completes (bench 0x200 0xF218 [(2, 0x02)])
      (fun t => t.st == 0x02 && t.soundOn) = true := by decide
/-- X-IX-2: no flag. -/
theorem test_add_i_vx :
    completes ({ bench 0x200 0xF11E [(1, 0x01)] with i := 0x0FFF })
      (fun t => t.i == 0x1000 && t.v[VF] == 0x00) = true := by decide
/-- X-IX-3. -/
theorem test_add_i_vx_wraps :
    completes ({ bench 0x200 0xF11E [(1, 0x02)] with i := 0xFFFF })
      (fun t => t.i == 0x0001) = true := by decide
/-- X-IX-6: the high nibble is ignored. -/
theorem test_ld_f_vx :
    completes (bench 0x200 0xF029 [(0, 0x3A)])
      (fun t => t.i == 0x0032) = true := by decide
/-- X-MEM-5: the last three bytes. -/
theorem test_ld_b_vx :
    completes ({ bench 0x200 0xF033 [(0, 0xFE)] with i := 0xFFD })
      (fun t => (List.range 3).map (fun k => Memory.get t.mem (0xFFD + k)) == [0x02, 0x05, 0x04]) = true := by decide
/-- X-MEM-4. -/
theorem test_ld_b_vx_past_the_end :
    faults ({ bench 0x200 0xF033 [(0, 0xFE)] with i := 0xFFE }) .addressOutOfRange = true := by decide
/-- X-MEM-6. -/
theorem test_ld_mem_vx :
    completes ({ bench 0x200 0xF255 [(0, 0x11), (1, 0x22), (2, 0x33), (3, 0x44)] with i := 0x400 })
      (fun t => (List.range 4).map (fun k => Memory.get t.mem (0x400 + k)) == [0x11, 0x22, 0x33, 0x00] && t.i == 0x400) = true := by decide
/-- X-MEM-11: a store below 0x200 is performed. -/
theorem test_ld_mem_vx_low :
    completes ({ bench 0x200 0xF055 [(0, 0xAA)] with i := 0x000 })
      (fun t => Memory.get t.mem 0 == 0xAA && Memory.get t.mem 1 == 0x90) = true := by decide
/-- X-MEM-13: glyph 0. -/
theorem test_ld_vx_mem :
    completes ({ bench 0x200 0xF465 [(5, 0x99)] with i := 0x000 })
      (fun t => t.v.toList.take 6 == [0xF0, 0x90, 0x90, 0x90, 0xF0, 0x99]) = true := by decide
/-- X-MEM-14. -/
theorem test_ld_vx_mem_past_the_end :
    faults ({ bench 0x200 0xFF65 [(0, 0x55)] with i := 0xFF1 }) .addressOutOfRange = true := by decide
/-- S9. -/
theorem test_unrecognized :
    faults (bench 0x200 0xFFFF []) .unrecognizedOpcode = true := by decide
/-- X-IF-7. -/
theorem test_fetch_past_the_end :
    faults ({ State.reset with pc := 0x0FFF }) .addressOutOfRange = true := by decide
/-- X-IF-4: the first step from reset with nothing loaded. -/
theorem test_no_program :
    completes (State.reset)
      (fun t => t.pc == 0x202 && t.booted) = true := by decide
/-- Program P8's store over the next instruction, and FX33 over one byte of it (X-MEM-1's digits). -/
theorem test_byte_after_store :
    byteAfterStore (.ldMemVx 1) { bench 0x206 0xF155 [(0, 0x12), (1, 0x08)] with i := 0x206 } 0x207 = 0x08 ∧
    byteAfterStore (.ldMemVx 1) { bench 0x206 0xF155 [(0, 0x12), (1, 0x08)] with i := 0x204 } 0x206 = 0xF1 ∧
    byteAfterStore (.ldBVx 0) { bench 0x200 0xF033 [(0, 0xFE)] with i := 0x300 } 0x302 = 0x04 ∧
    byteAfterStore (.ldBVx 0) { bench 0x200 0xF033 [(0, 0xFE)] with i := 0x300 } 0x303 = 0x00 := by decide

/-- X-IF-1, X-IF-2, X-IF-10 at their sizes' edges, on two bytes and on a longer image. -/
theorem test_load :
    (State.reset.load [0x12, 0x34]).2 = .ok ∧ Memory.get (State.reset.load [0x12, 0x34]).1.mem 0x201 = 0x34 ∧
    (({ State.reset with booted := true }).load [0x12, 0x34]).2 = .refused .loadAfterFirstStep ∧
    (State.reset.load (List.replicate 3585 0x00)).2 = .fault .romTooLarge := by
  refine ⟨by decide, by decide, by decide, ?_⟩
  rw [State.load, List.length_replicate]
  rfl

/-- The numeric codes of 50_engine_and_interface.md R210. -/
theorem test_codes :
    StepOutcome.kind .awaitingKey = 1 ∧ StepOutcome.kind (.fault .romTooLarge) = 3 ∧
    StepOutcome.reasonCode (.fault .stackUnderflow) = 5 ∧ StepOutcome.reasonCode .continued = 0 ∧
    StepOutcome.kind .halted = 2 := by decide

/-- The canonical form: writing the value a byte had at reset lists nothing (20_memory.md R58). -/
theorem test_memory_canonical :
    Memory.put (Memory.put [] 0x001 0xAA) 0x001 0x90 = [] ∧ Memory.wf (Memory.put (Memory.put [] 0x300 0x01) 0x2FF 0x02) = true ∧
    Memory.wf [(0x001, 0x90)] = false ∧ Memory.wf [(0x301, 0x01), (0x300, 0x01)] = false := by decide

/-! ## Witnesses: a state and operands that meet the hypotheses of each statement, for each clause at a boundary -/

theorem witness_DecodeOfEncode :
    (Instr.sys 0x0EF).wellFormed = true ∧ (Instr.drw 15 15 15).wellFormed = true := by decide
theorem witness_EncodeOfDecode :
    decodeWord 0x00E1 = .ok (.sys 0x0E1) ∧ decodeWord 0x8FF6 = .ok (.shr 15 15) := by decide
theorem witness_StepRunsDecodedInstruction :
    ∃ (s : State) (i : Instr) (t : State), s.waitValid = false ∧ s.pc.toNat ≤ 0xFFE ∧
      decodeWord (Memory.get s.mem s.pc.toNat ++ Memory.get s.mem (s.pc.toNat + 1)) = .ok i ∧
      exec i { s with booted := true, outcome := some .continued } = .next t := 
  ⟨bench 0xFFE 0x00E0 [], .cls, _, by decide, by decide, by decide, rfl⟩
theorem witness_StepRunsDecodedInstruction_fault :
    ∃ (s : State) (i : Instr) (f : Fault), s.waitValid = false ∧ s.pc.toNat ≤ 0xFFE ∧
      decodeWord (Memory.get s.mem s.pc.toNat ++ Memory.get s.mem (s.pc.toNat + 1)) = .ok i ∧
      exec i { s with booted := true, outcome := some .continued } = .fault f := 
  ⟨bench 0x200 0x00EE [], .ret, .stackUnderflow, by decide, by decide, by decide, rfl⟩
theorem witness_FetchReadsBigEndianWord :
    (bench 0xFFE 0x00E0 []).pc.toNat = 0xFFE ∧
      (0xFFF ≤ ({ State.reset with pc := 0x0FFF } : State).pc.toNat ∧ ({ State.reset with pc := 0x0FFF } : State).waitValid = false) := by decide
theorem witness_UnrecognizedWordFaults :
    ∃ s : State, s.waitValid = false ∧ s.pc.toNat ≤ 0xFFE ∧
      decodeWord (Memory.get s.mem s.pc.toNat ++ Memory.get s.mem (s.pc.toNat + 1)) = .error .unrecognizedOpcode := 
  ⟨bench 0xFFE 0x5121 [], by decide, by decide, by decide⟩
theorem witness_StepOutcomeReported_and_InvariantKept :
    ∃ s t : State, s.Inv ∧ step s = .next t := 
  ⟨State.reset, _, by decide, rfl⟩
theorem witness_StepOutcomeReported_and_InvariantKept_waiting :
    ∃ s t : State, s.Inv ∧ s.waitValid = true ∧ s.pc.toNat = 0xFFE ∧ step s = .next t := 
  ⟨{ State.reset with pc := 0x0FFE, waitValid := true, booted := true, outcome := some .awaitingKey, script := [⟨1, 0, 2⟩] },
    _, by decide, rfl, by decide, rfl⟩
theorem witness_FaultTableExact :
    faultTable .ret State.reset = some .stackUnderflow ∧ faultTable (.jp 0x1FF) State.reset = some .illegalJumpTarget ∧
      faultTable (.call 0x200) { State.reset with sp := 16 } = some .stackOverflow ∧
      faultTable (.drw 0 0 1) { State.reset with i := 0x1000 } = some .addressOutOfRange ∧
      faultTable (.drw 0 0 0) { State.reset with i := 0x1000 } = none := by decide
theorem witness_FaultChangesNothing_and_FaultRepeats :
    ∃ (s : State) (f : Fault), step s = .fault f := 
  ⟨bench 0x200 0x00EE [], .stackUnderflow, by rfl⟩
theorem witness_InvariantKeptByTransactions :
    State.reset.Inv := by decide
theorem witness_TickDecrements :
    (∃ s : State, s.dt ≠ 0 ∧ s.st ≠ 0) ∧ ∃ s : State, s.dt = 0 ∧ s.st = 0 := 
  ⟨⟨{ State.reset with dt := 0x01, st := 0xFF }, by decide, by decide⟩, State.reset, by decide, by decide⟩
theorem witness_LoadPlacesImage :
    ∃ (s : State) (bytes : List Byte), s.booted = false ∧ bytes.length = 3584 := 
  ⟨State.reset, List.replicate 3584 0x00, by decide, List.length_replicate⟩
theorem witness_LoadPlacesImage_refused :
    ∃ s : State, s.booted = true := ⟨{ State.reset with booted := true }, rfl⟩
theorem witness_RomTooLargeOnlyByLoad :
    ∃ (s : State) (bytes : List Byte) (f : Fault), s.booted = false ∧ bytes.length = 3585 ∧ (s.load bytes).2 = .fault f := 
  ⟨State.reset, List.replicate 3585 0x00, .romTooLarge, by decide, List.length_replicate, test_load.2.2.2⟩
theorem witness_JumpChecksTarget :
    0x200 ≤ (0x200 : Addr12).toNat ∧ (0x1FF : Addr12).toNat < 0x200 := by decide
theorem witness_CallPushesReturnAddress :
    (0x200 ≤ (0x200 : Addr12).toNat ∧ ({ State.reset with sp := 15 } : State).sp.val < 16) ∧
      (0x1FF : Addr12).toNat < 0x200 ∧ 0x200 ≤ (0xFFF : Addr12).toNat ∧ ({ State.reset with sp := 16 } : State).sp.val = 16 := by decide
theorem witness_ReturnPopsNewestEntry :
    ∃ s : State, 1 ≤ s.sp.val ∧ ∃ k : Fin 16, k.val + 1 = s.sp.val := ⟨{ State.reset with sp := 16 }, by decide, 15, by decide⟩
theorem witness_ReturnOnEmptyStackFaults :
    State.reset.sp.val = 0 := by decide
theorem witness_JumpOffsetChecksSum :
    ∃ (m n : Addr12) (s t : State), m.toNat + (s.v[(0 : Reg)]).toNat = 0x200 ∧ n.toNat + (s.v[(0 : Reg)]).toNat = 0xFFF ∧
      m.toNat + (t.v[(0 : Reg)]).toNat < 0x200 ∧ 0xFFF < (0xFFF : Addr12).toNat + (s.v[(0 : Reg)]).toNat := 
  ⟨0x1F0, 0xFEF, bench 0x200 0xB1F0 [(0, 0x10)], bench 0x200 0xB1F0 [(0, 0x0F)], by decide, by decide, by decide, by decide⟩
theorem witness_CallsThenReturnsRoundTrip :
    ∃ (s : State) (targets : List Addr12), targets ≠ [] ∧ (∀ n ∈ targets, 0x200 ≤ n.toNat) ∧
      s.sp.val + targets.length = 16 := 
  ⟨{ State.reset with sp := 14 }, [0x200, 0xFFF], by decide, by decide, by decide⟩
theorem witness_KeySkipsTestOneKey :
    ∃ s t u : State, ((s.v[(1 : Reg)]).toNat = 15 ∧ s.keys.getLsbD (s.v[(1 : Reg)]).toNat = true) ∧
      ((t.v[(1 : Reg)]).toNat = 15 ∧ t.keys.getLsbD (t.v[(1 : Reg)]).toNat = false) ∧ (u.v[(1 : Reg)]).toNat = 16 := 
  ⟨bench 0x200 0xE19E [(1, 0x0F)] ⟨0x8000, 0x00, 0⟩, bench 0x200 0xE19E [(1, 0x0F)], bench 0x200 0xE19E [(1, 0x10)], by decide, by decide,
    by decide⟩
theorem witness_AddSetsCarry_and_SubtractionsSetNotBorrow_and_ShiftsByOneInPlace :
    ∃ x : Reg, x ≠ VF ∧ (completes (bench 0x200 0x8FF4 [(15, 0x80)]) fun t => t.v[VF] == 0x01) = true := ⟨14, by decide⟩
theorem witness_FlagIsZeroOrOne :
    ∃ (i : Instr) (s t : State), writesFlag i = true ∧ exec i s = .next t := ⟨.shl 15 0, State.reset, _, rfl, rfl⟩
theorem witness_OnlyDestinationsChange :
    ∃ (i : Instr) (s t : State) (r : Reg), exec i s = .next t ∧ r ∉ destinations i ∧ (writesFlag i = true → r ≠ VF) := 
  ⟨.ldVxMem 13, State.reset, _, 14, rfl, by decide, by decide⟩
theorem witness_OnlyStoresChangeMemory_and_EachPartHasItsWriters :
    ∃ s t : State, exec (.ldMemVx 15) s = .next t ∧ s.i.toNat = 0xFF0 := 
  ⟨{ State.reset with i := 0x0FF0 }, _, rfl, by decide⟩
theorem witness_EachPartHasItsWriters :
    (∀ n, Instr.ldFVx 0 ≠ .call n) ∧ Instr.ldFVx 0 ≠ .ret ∧ (∀ x, Instr.ldFVx 0 ≠ .ldDTVx x) ∧
      (∀ x, Instr.ldFVx 0 ≠ .ldSTVx x) ∧ Instr.ldFVx 0 ≠ .cls ∧ (∀ x y n, Instr.ldFVx 0 ≠ .drw x y n) ∧
      (∀ x, Instr.ldFVx 0 ≠ .ldVxK x) ∧ (∀ n, Instr.cls ≠ .ldI n) ∧ (∀ x, Instr.cls ≠ .addIVx x) ∧
      ∀ x, Instr.cls ≠ .ldFVx x := by simp
theorem witness_InputsEnterOnlyThroughPorts :
    readsInputs (.ldVxDT 3) = false ∧ readsInputs (.drw 0 0 15) = false := by decide
theorem witness_FontIntactWithoutLowStores :
    ∃ (s t : State), FontIntact s ∧ exec (.ldBVx 0) s = .next t ∧ 0x200 ≤ (storedBytes (.ldBVx 0) s).1 := 
  ⟨{ State.reset with i := 0x0200 }, _, fun _ _ => rfl, rfl, by decide⟩
theorem witness_DrawInvertsSpritePixels :
    ∃ (s t : State), s.i.toNat + 15 = 0x1000 ∧ 0x1000 < t.i.toNat ∧ (0 : Rows).val = 0 := 
  ⟨{ State.reset with i := 0x0FF1 }, { State.reset with i := 0x10FE }, by decide, by decide, rfl⟩
theorem witness_DrawInvertsSpritePixels_hit :
    SpriteHits (bench 0x200 0xD125 [(1, 0x3E), (2, 0x1E)]) 1 2 5 1 0 ∧ ¬SpriteHits State.reset 0 0 0 0 0 := 
  ⟨⟨2, 3, by decide⟩, fun ⟨_, _, h, _⟩ => absurd h (Nat.not_lt_zero _)⟩
theorem witness_DrawInvertsSpritePixels_collision :
    ∃ s : State, SpriteHits s 0 0 1 0 0 ∧ s.isSet 0 0 = true := 
  ⟨{ State.reset with fb := Vector.replicate 32 (Vector.replicate 64 true) }, ⟨0, 0, by decide⟩, by decide⟩
theorem witness_DrawTwiceRestores :
    ∃ s t u : State, exec (.drw 1 2 5) s = .next t ∧ SamePart .pixels t u ∧ SamePart .index t u ∧ SamePart .memory t u ∧
      (u.v[(1 : Reg)]).toNat % 64 = (s.v[(1 : Reg)]).toNat % 64 ∧ (u.v[(2 : Reg)]).toNat % 32 = (s.v[(2 : Reg)]).toNat % 32 := 
  ⟨State.reset, _, _, rfl, fun _ _ => rfl, rfl, fun _ => rfl, rfl, rfl⟩
/-- X = VF, which the first draw overwrites: the column is loaded again, one screen further on, before the second draw. -/
theorem witness_DrawTwiceRestores_flag_register :
    ∃ s t u : State, exec (.drw 15 2 0) s = .next t ∧ t.v[VF] ≠ s.v[VF] ∧ SamePart .pixels t u ∧ SamePart .index t u ∧
      SamePart .memory t u ∧ (u.v[VF]).toNat % 64 = (s.v[VF]).toNat % 64 ∧
      (u.v[(2 : Reg)]).toNat % 32 = (s.v[(2 : Reg)]).toNat % 32 := 
  ⟨bench 0x200 0xDF20 [(15, 0x3F)], _, (bench 0x200 0xDF20 [(15, 0x7F)]).setPc 0x202, rfl, by decide, fun _ _ => rfl, rfl,
    fun _ => rfl, by decide, by decide⟩
theorem witness_KeyWaitStep :
    ∃ s t : State, (s.waitValid = true ∧ ∀ k : Fin 16, s.keys.getLsbD k = true → s.keyPrev.getLsbD k = true) ∧
      (t.waitValid = true ∧ t.keys.getLsbD 15 = true ∧ t.keyPrev.getLsbD 15 = false ∧
        ∀ j : Fin 16, j < 15 → t.keys.getLsbD j = true → t.keyPrev.getLsbD j = true) := 
  ⟨{ bench 0x200 0xF30A [] ⟨0x0020, 0x00, 0⟩ with waitValid := true, keyPrev := 0x0021 },
    { bench 0x200 0xF30A [] ⟨0x8020, 0x00, 0⟩ with waitValid := true, keyPrev := 0x0021 }, by decide, by decide⟩
theorem witness_StoresDecimalDigits :
    ({ State.reset with i := 0x0FFD } : State).i.toNat + 2 = 0xFFF ∧ 0xFFF < ({ State.reset with i := 0x0FFE } : State).i.toNat + 2 := by decide
theorem witness_StoresRegisterBlock_and_LoadsRegisterBlock :
    ({ State.reset with i := 0x0FF0 } : State).i.toNat + (15 : Reg).val = 0xFFF ∧
      0xFFF < ({ State.reset with i := 0x0FF1 } : State).i.toNat + (15 : Reg).val ∧ (14 : Reg) ≤ 14 ∧ (14 : Reg) < 15 := by decide
theorem witness_StoreThenLoadRestores :
    ∃ (s t u : State), exec (.ldMemVx 15) s = .next t ∧ SamePart .index t u ∧ SamePart .memory t u := 
  ⟨{ State.reset with i := 0x0FF0 }, _, _, rfl, rfl, fun _ => rfl⟩
theorem witness_FetchSeesStore :
    ∃ s t u : State, exec (.ldMemVx 1) s = .next t ∧ SamePart .memory t u ∧ u.pc.toNat ≤ 0xFFE ∧
      u.pc.toNat = s.i.toNat := 
  ⟨{ State.reset with i := 0x0202 }, _, _, rfl, fun _ => rfl, by decide, by decide⟩
/-- FX33 at the end of memory, the last of its three bytes the second one fetched, and FX33 whose last byte is the first. -/
theorem witness_FetchSeesStore_one_byte :
    (∃ s t u : State, exec (.ldBVx 0) s = .next t ∧ SamePart .memory t u ∧ u.pc.toNat = 0xFFE ∧ u.pc.toNat + 1 = s.i.toNat + 2) ∧
      ∃ s t u : State, exec (.ldBVx 0) s = .next t ∧ SamePart .memory t u ∧ u.pc.toNat = s.i.toNat + 2 := 
  ⟨⟨{ State.reset with i := 0x0FFD }, _, State.setPc _ 0x0FFE, rfl, fun _ => rfl, by decide, by decide⟩,
    { State.reset with i := 0x0200 }, _, _, rfl, fun _ => rfl, by decide⟩
theorem witness_EqualMemoriesAreEqualData :
    ∃ m m' : Memory, Memory.wf m = true ∧ Memory.wf m' = true ∧ ∀ a, Memory.get m a = Memory.get m' a := 
  ⟨[(0x300, 0x01)], [(0x300, 0x01)], by decide, by decide, fun _ => rfl⟩

end Sys2Proof.Tests
end

section
/-! PROOFS. Control transfer (spec 40_control_transfer.md): the instructions that only move `pc`. -/

namespace Sys2Proof.Machine

/-- The frame of a `pc` write (10_state.md R26): no other part of the state reads differently. -/
theorem State.setPc_keepsAllBut (s : State) (a : Word) : KeepsAllBut [.pc] s (s.setPc a) := by
  intro p hp
  cases p with
  | pc => exact absurd List.mem_cons_self hp
  | _ => simp [SamePart, State.isSet]

theorem State.advance_keepsAllBut (s : State) : KeepsAllBut [.pc] s s.advance := s.setPc_keepsAllBut (s.pc + 2)

/-- `SYS nnn` has one next state, whatever `nnn` is (R110). -/
theorem exec_sys (nnn : Addr12) (s : State) : exec (.sys nnn) s = .next s.advance := rfl

/-- A 12-bit address keeps its value as a `pc`. -/
theorem toNat_ofNat_addr12 (nnn : Addr12) : (BitVec.ofNat 16 nnn.toNat).toNat = nnn.toNat := by
  rw [BitVec.toNat_ofNat, Nat.mod_eq_of_lt (by have := nnn.isLt; omega)]

/-- Settles O21: the one next state of `SYS` is the advanced state. -/
theorem sysAdvancesOnly : Obligations.SysAdvancesOnly := fun nnn s =>
  ⟨s.advance, exec_sys nnn s, s.advance_pc, s.advance_keepsAllBut⟩

/-- Settles O22: of the two cases of `JP`, the range of the target leaves one. -/
theorem jumpChecksTarget : Obligations.JumpChecksTarget := by
  intro nnn s
  rcases exec_jp_cases nnn s with ⟨hlow, hexec⟩ | ⟨hlegal, hexec⟩
  · exact ⟨fun h => absurd hlow (Nat.not_lt.2 h), fun _ => hexec⟩
  · refine ⟨fun _ => ⟨_, hexec, ?_, s.setPc_keepsAllBut _⟩, fun h => absurd h (Nat.not_lt.2 hlegal)⟩
    rw [State.setPc_pc, toNat_ofNat_addr12]

end Sys2Proof.Machine
end

section
/-! PROOFS. Conditional skips (spec 41_skips.md): every skip is one `State.skipIf` on its condition. -/

namespace Sys2Proof.Machine

theorem exec_seImm (x : Reg) (kk : Byte) (s : State) : exec (.seImm x kk) s = .next (s.skipIf (s.v[x] == kk)) := rfl

theorem exec_sneImm (x : Reg) (kk : Byte) (s : State) : exec (.sneImm x kk) s = .next (s.skipIf (s.v[x] != kk)) := rfl

theorem exec_seReg (x y : Reg) (s : State) : exec (.seReg x y) s = .next (s.skipIf (s.v[x] == s.v[y])) := rfl

theorem exec_sneReg (x y : Reg) (s : State) : exec (.sneReg x y) s = .next (s.skipIf (s.v[x] != s.v[y])) := rfl

/-- The frame of a skip (R27): it is one `pc` write. -/
theorem State.skipIf_keepsAllBut (s : State) (c : Bool) : KeepsAllBut [.pc] s (s.skipIf c) := s.setPc_keepsAllBut _

/-- A skip whose test decides `p` branches on `p`. -/
theorem State.skipIf_pc_of_iff (s : State) {c : Bool} {p : Prop} [Decidable p] (h : c = true ↔ p) :
    (s.skipIf c).pc = if p then s.pc + 4 else s.pc + 2 := by
  rw [State.skipIf_pc, if_congr h rfl rfl]

/-- Settles O28: each skip is `skipIf` on a test that decides its condition, `==` for SE and `!=` for SNE. -/
theorem skipsAdvanceByCondition : Obligations.SkipsAdvanceByCondition := fun x y kk s =>
  ⟨⟨_, exec_seImm x kk s, s.skipIf_pc_of_iff beq_iff_eq, s.skipIf_keepsAllBut _⟩,
    ⟨_, exec_sneImm x kk s, s.skipIf_pc_of_iff bne_iff_ne, s.skipIf_keepsAllBut _⟩,
    ⟨_, exec_seReg x y s, s.skipIf_pc_of_iff beq_iff_eq, s.skipIf_keepsAllBut _⟩,
    ⟨_, exec_sneReg x y s, s.skipIf_pc_of_iff bne_iff_ne, s.skipIf_keepsAllBut _⟩⟩

end Sys2Proof.Machine
end

section
/-! PROOFS. Immediate loads, immediate add and random (spec 42_load_immediate.md): one write to a register or to `I`, then
the advance. The frame of two updates in a row is the composition of their frames. -/

namespace Sys2Proof.Machine

/-! ## Composing frames -/

theorem SamePart.trans {p : Part} {s t u : State} (hst : SamePart p s t) (htu : SamePart p t u) : SamePart p s u := by
  cases p with
  | regs => exact fun r => (htu r).trans (hst r)
  | memory => exact fun a => (htu a).trans (hst a)
  | pixels => exact fun x y => (htu x y).trans (hst x y)
  | stack => exact ⟨htu.1.trans hst.1, fun k => (htu.2 k).trans (hst.2 k)⟩
  | wait =>
    obtain ⟨hvalid, hx, hprev⟩ := hst
    obtain ⟨hvalid', hx', hprev'⟩ := htu
    exact ⟨hvalid'.trans hvalid, hx'.trans hx, hprev'.trans hprev⟩
  | host => exact ⟨htu.1.trans hst.1, htu.2.trans hst.2⟩
  | index | pc | dt | st | booted | outcome => exact Eq.trans htu hst

/-- Two updates in a row change at most what either changes. -/
theorem KeepsAllBut.trans {l l' : List Part} {s t u : State} (hst : KeepsAllBut l s t) (htu : KeepsAllBut l' t u) :
    KeepsAllBut (l ++ l') s u := fun p hp =>
  have ⟨hl, hl'⟩ := not_or.1 (List.mem_append.not.1 hp)
  (hst p hl).trans (htu p hl')

/-! ## One register write (10_state.md R21, R23) -/

theorem State.getElem_setV_self (s : State) (x : Reg) (b : Byte) : (s.setV x b).v[x] = b :=
  Vector.getElem_set_self x.isLt

theorem State.getElem_setV_of_ne (s : State) {x r : Reg} (b : Byte) (h : r ≠ x) : (s.setV x b).v[r] = s.v[r] :=
  Vector.getElem_set_ne x.isLt r.isLt fun e => h (Fin.ext e.symm)

/-- No register but the destination is written, VF included. -/
theorem State.setV_keepsRegsBut (s : State) (x : Reg) (b : Byte) : KeepsRegsBut [x] s (s.setV x b) := fun _ hr =>
  s.getElem_setV_of_ne b (List.ne_of_not_mem_cons hr)

theorem State.setV_keepsAllBut (s : State) (x : Reg) (b : Byte) : KeepsAllBut [.regs] s (s.setV x b) := by
  intro p hp
  cases p with
  | regs => exact absurd List.mem_cons_self hp
  | _ => simp [SamePart, State.isSet]

theorem State.setV_advance_keepsAllBut (s : State) (x : Reg) (b : Byte) :
    KeepsAllBut [.regs, .pc] s (s.setV x b).advance :=
  (s.setV_keepsAllBut x b).trans (s.setV x b).advance_keepsAllBut

/-! ## One write to `I` (10_state.md R25) -/

theorem State.setI_keepsAllBut (s : State) (w : Word) : KeepsAllBut [.index] s (s.setI w) := by
  intro p hp
  cases p with
  | index => exact absurd List.mem_cons_self hp
  | _ => simp [SamePart, State.isSet]

theorem State.setI_advance_keepsAllBut (s : State) (w : Word) : KeepsAllBut [.index, .pc] s (s.setI w).advance :=
  (s.setI_keepsAllBut w).trans (s.setI w).advance_keepsAllBut

/-- Zero extension keeps the value of a 12-bit field (30_encoding.md R83). -/
theorem toNat_zext16 (nnn : Addr12) : (zext16 nnn).toNat = nnn.toNat :=
  BitVec.toNat_setWidth_of_le (by decide)

/-! ## The four instructions -/

theorem exec_ldImm (x : Reg) (kk : Byte) (s : State) : exec (.ldImm x kk) s = .next (s.setV x kk).advance := rfl

theorem exec_addImm (x : Reg) (kk : Byte) (s : State) :
    exec (.addImm x kk) s = .next (s.setV x (s.v[x] + kk)).advance := rfl

theorem exec_ldI (nnn : Addr12) (s : State) : exec (.ldI nnn) s = .next (s.setI (zext16 nnn)).advance := rfl

theorem exec_rnd (x : Reg) (kk : Byte) (s : State) :
    exec (.rnd x kk) s = .next (s.setV x (s.rnd &&& kk)).advance := rfl

/-- Settles O30: the one next state is the register write of `kk`, advanced. -/
theorem loadImmediate : Obligations.LoadImmediate := fun x kk s =>
  ⟨_, exec_ldImm x kk s, s.getElem_setV_self x kk, s.setV_keepsRegsBut x kk, State.advance_pc _,
    s.setV_advance_keepsAllBut x kk⟩

/-- Settles O31: the byte written is the sum of two bytes, which wraps at 256, and nothing else writes a register. -/
theorem addImmediateWraps : Obligations.AddImmediateWraps := fun x kk s =>
  have hsum : ((s.setV x (s.v[x] + kk)).v[x]).toNat = ((s.v[x]).toNat + kk.toNat) % 256 := by
    rw [State.getElem_setV_self, BitVec.toNat_add]
  ⟨_, exec_addImm x kk s, hsum, s.setV_keepsRegsBut x _, State.advance_pc _, s.setV_advance_keepsAllBut x _⟩

/-- Settles O32: the one next state is the write of the zero-extended field to `I`, advanced. -/
theorem loadIndexZeroExtends : Obligations.LoadIndexZeroExtends := fun nnn s =>
  ⟨_, exec_ldI nnn s, toNat_zext16 nnn, State.advance_pc _, s.setI_advance_keepsAllBut _⟩

/-- Settles O33: a bit of the masked port is the bit of the port and of the mask, whatever the port holds. -/
theorem randomIsMaskedPort : Obligations.RandomIsMaskedPort := fun x kk s =>
  have hbits : ∀ b : Nat, ((s.setV x (s.rnd &&& kk)).v[x]).getLsbD b = (s.rnd.getLsbD b && kk.getLsbD b) := by
    intro b
    rw [State.getElem_setV_self, BitVec.getLsbD_and]
  ⟨_, exec_rnd x kk s, hbits, s.setV_keepsRegsBut x _, State.advance_pc _, s.setV_advance_keepsAllBut x _⟩

end Sys2Proof.Machine
end

section
/-! PROOFS. The sum and the two differences (spec 43_alu.md): a result write, then the VF write, which wins where both name
VF, then the advance. What the write pair leaves is said once, for any result and any flag. -/

namespace Sys2Proof.Machine

/-! ## Weakening and composing frames -/

/-- A part that is allowed to change need not change. -/
theorem KeepsAllBut.mono {l l' : List Part} {s t : State} (h : KeepsAllBut l s t) (hl : l ⊆ l') : KeepsAllBut l' s t :=
  fun p hp => h p fun hmem => hp (hl hmem)

/-- Two register updates in a row change at most the registers either changes. -/
theorem KeepsRegsBut.trans {l l' : List Reg} {s t u : State} (hst : KeepsRegsBut l s t) (htu : KeepsRegsBut l' t u) :
    KeepsRegsBut (l ++ l') s u := fun r hr =>
  have ⟨hl, hl'⟩ := not_or.1 (List.mem_append.not.1 hr)
  (htu r hl').trans (hst r hl)

/-! ## A result with its flag (10_state.md R24, 43_alu.md R140 (d), (e)) -/

/-- The flag write comes last, so VF holds the flag even when the result was written to VF. -/
theorem State.getElem_setResultThenFlag_VF (s : State) (x : Reg) (b : Byte) (c : Bool) :
    (s.setResultThenFlag x b c).v[VF] = flagByte c :=
  (s.setV x b).getElem_setV_self VF (flagByte c)

/-- The flag write spares a result in any other register. -/
theorem State.getElem_setResultThenFlag_of_ne_VF (s : State) {x : Reg} (b : Byte) (c : Bool) (h : x ≠ VF) :
    (s.setResultThenFlag x b c).v[x] = b :=
  ((s.setV x b).getElem_setV_of_ne (flagByte c) h).trans (s.getElem_setV_self x b)

theorem State.setResultThenFlag_keepsRegsBut (s : State) (x : Reg) (b : Byte) (c : Bool) :
    KeepsRegsBut [x, VF] s (s.setResultThenFlag x b c) :=
  (s.setV_keepsRegsBut x b).trans ((s.setV x b).setV_keepsRegsBut VF (flagByte c))

theorem State.setResultThenFlag_advance_keepsAllBut (s : State) (x : Reg) (b : Byte) (c : Bool) :
    KeepsAllBut [.regs, .pc] s (s.setResultThenFlag x b c).advance :=
  ((s.setV_keepsAllBut x b).trans ((s.setV x b).setV_advance_keepsAllBut VF (flagByte c))).mono (by decide)

/-! ## The values of the flag and of the result -/

theorem carry_eq_true_iff (a b : Byte) : carry a b = true ↔ 255 < a.toNat + b.toNat := decide_eq_true_iff

theorem notBorrow_eq_true_iff (a b : Byte) : notBorrow a b = true ↔ b.toNat ≤ a.toNat := decide_eq_true_iff

/-- A flag that decides `p` is the number 1 or 0 by `p`. -/
theorem toNat_flagByte_of_iff {c : Bool} {p : Prop} [Decidable p] (h : c = true ↔ p) :
    (flagByte c).toNat = if p then 1 else 0 := by
  rw [flagByte, apply_ite BitVec.toNat]
  exact if_congr h rfl rfl

/-- A difference of two bytes wraps exactly on a borrow. -/
theorem toNat_sub_byte (a b : Byte) :
    (a - b).toNat = if b.toNat ≤ a.toNat then a.toNat - b.toNat else a.toNat + 256 - b.toNat := by
  split
  case isTrue h => exact BitVec.toNat_sub_of_le h
  case isFalse h => rw [BitVec.toNat_sub_of_lt (Nat.lt_of_not_le h)]; omega

/-! ## The three instructions -/

theorem exec_addReg (x y : Reg) (s : State) :
    exec (.addReg x y) s = .next (s.setResultThenFlag x (s.v[x] + s.v[y]) (carry s.v[x] s.v[y])).advance := rfl

theorem exec_subReg (x y : Reg) (s : State) :
    exec (.subReg x y) s = .next (s.setResultThenFlag x (s.v[x] - s.v[y]) (notBorrow s.v[x] s.v[y])).advance := rfl

theorem exec_subn (x y : Reg) (s : State) :
    exec (.subn x y) s = .next (s.setResultThenFlag x (s.v[y] - s.v[x]) (notBorrow s.v[y] s.v[x])).advance := rfl

/-- An instruction whose one next state is a result with its flag, advanced: VF is the flag, also for `x = VF`, the result
stands in any other `x`, and nothing but `V[x]`, VF and `pc` changes. -/
theorem exec_result_flag {i : Instr} {x : Reg} {s : State} {b : Byte} {c : Bool} {p : Prop} [Decidable p] {n : Nat}
    (hexec : exec i s = .next (s.setResultThenFlag x b c).advance) (hflag : c = true ↔ p) (hresult : b.toNat = n) :
    ∃ t, exec i s = .next t ∧ (t.v[VF]).toNat = (if p then 1 else 0) ∧ (x ≠ VF → (t.v[x]).toNat = n) ∧
      KeepsRegsBut [x, VF] s t ∧ t.pc = s.pc + 2 ∧ KeepsAllBut [.regs, .pc] s t := by
  refine ⟨_, hexec, ?_, fun hx => ?_, s.setResultThenFlag_keepsRegsBut x b c, State.advance_pc _,
    s.setResultThenFlag_advance_keepsAllBut x b c⟩
  · rw [State.advance_v, State.getElem_setResultThenFlag_VF, toNat_flagByte_of_iff hflag]
  · rw [State.advance_v, State.getElem_setResultThenFlag_of_ne_VF s b c hx, hresult]

/-- Settles O35: the flag is the carry, and the byte written before it is the sum, which wraps at 256. -/
theorem addSetsCarry : Obligations.AddSetsCarry := fun x y s =>
  exec_result_flag (exec_addReg x y s) (carry_eq_true_iff s.v[x] s.v[y]) (BitVec.toNat_add s.v[x] s.v[y])

/-- Settles O36: `SUBN` is `SUB` with the operands of the difference and of its not-borrow exchanged. -/
theorem subtractionsSetNotBorrow : Obligations.SubtractionsSetNotBorrow := fun x y s =>
  ⟨exec_result_flag (exec_subReg x y s) (notBorrow_eq_true_iff s.v[x] s.v[y]) (toNat_sub_byte s.v[x] s.v[y]),
    exec_result_flag (exec_subn x y s) (notBorrow_eq_true_iff s.v[y] s.v[x]) (toNat_sub_byte s.v[y] s.v[x])⟩

end Sys2Proof.Machine
end

section
/-! PROOFS. The framebuffer clear (spec 44_display.md): one framebuffer write, then the advance. -/

namespace Sys2Proof.Machine

/-- The frame of a framebuffer write (10_state.md R33): no other part of the state reads differently. -/
theorem State.setFb_keepsAllBut (s : State) (fb : Framebuffer) : KeepsAllBut [.pixels] s (s.setFb fb) := by
  intro p hp
  cases p with
  | pixels => exact absurd List.mem_cons_self hp
  | _ => simp [SamePart]

theorem State.setFb_advance_keepsAllBut (s : State) (fb : Framebuffer) :
    KeepsAllBut [.pixels, .pc] s (s.setFb fb).advance :=
  (s.setFb_keepsAllBut fb).trans (s.setFb fb).advance_keepsAllBut

/-- No pixel of a blank framebuffer is set, whatever the state held before. -/
theorem State.isSet_setFb_blankFb (s : State) (x : Fin 64) (y : Fin 32) : (s.setFb blankFb).isSet x y = false :=
  pixel_blankFb (x, y)

theorem exec_cls (s : State) : exec .cls s = .next (s.setFb blankFb).advance := rfl

/-- Settles O44: the one next state is the write of the blank framebuffer, advanced. -/
theorem clearUnsetsEveryPixel : Obligations.ClearUnsetsEveryPixel := fun s =>
  ⟨_, exec_cls s, s.isSet_setFb_blankFb, State.advance_pc _, s.setFb_advance_keepsAllBut blankFb⟩

end Sys2Proof.Machine
end

section
/-! PROOFS. The delay timer accesses (spec 46_timer_index_memory.md R180, R181): one register write or one timer write, then
the advance. -/

namespace Sys2Proof.Machine

/-- The frame of a delay timer write (10_state.md R31): no other part of the state reads differently, the sound timer included. -/
theorem State.setDT_keepsAllBut (s : State) (b : Byte) : KeepsAllBut [.dt] s (s.setDT b) := by
  intro p hp
  cases p with
  | dt => exact absurd List.mem_cons_self hp
  | _ => simp [SamePart, State.isSet]

theorem State.setDT_advance_keepsAllBut (s : State) (b : Byte) : KeepsAllBut [.dt, .pc] s (s.setDT b).advance :=
  (s.setDT_keepsAllBut b).trans (s.setDT b).advance_keepsAllBut

theorem exec_ldVxDT (x : Reg) (s : State) : exec (.ldVxDT x) s = .next (s.setV x s.dt).advance := rfl

theorem exec_ldDTVx (x : Reg) (s : State) : exec (.ldDTVx x) s = .next (s.setDT s.v[x]).advance := rfl

/-- Settles O49: FX07 writes the timer to one register, FX15 writes one register to the timer, and each then advances. -/
theorem delayTimerAccesses : Obligations.DelayTimerAccesses := fun x s =>
  ⟨⟨_, exec_ldVxDT x s, s.getElem_setV_self x s.dt, s.setV_keepsRegsBut x s.dt, State.advance_pc _,
      s.setV_advance_keepsAllBut x s.dt⟩,
    ⟨_, exec_ldDTVx x s, s.setDT_dt s.v[x], State.advance_pc _, s.setDT_advance_keepsAllBut s.v[x]⟩⟩

end Sys2Proof.Machine
end

section
/-! PROOFS. The fetch and the tick (spec 50_engine_and_interface.md R206, R215): the word a fetch reads is its two bytes,
the first one high, and a tick is one decrement of each timer that is not 0. -/

namespace Sys2Proof.Machine

/-! ## The fetch (R206) -/

/-- Two bytes side by side are a big-endian number (20_memory.md R53). -/
theorem toNat_append_bytes (hi lo : Byte) : (hi ++ lo : Word).toNat = hi.toNat * 256 + lo.toNat := by
  rw [BitVec.toNat_append, ← Nat.shiftLeft_add_eq_or_of_lt lo.isLt, Nat.shiftLeft_eq]

theorem State.fetch_of_le {s : State} (h : s.pc.toNat ≤ 0xFFE) :
    s.fetch = .ok (Memory.get s.mem s.pc.toNat ++ Memory.get s.mem (s.pc.toNat + 1)) := by
  rcases s.fetch_cases with ⟨hpast, _⟩ | ⟨_, hfetch⟩
  · omega
  · exact hfetch

theorem State.fetch_of_ge {s : State} (h : 0xFFF ≤ s.pc.toNat) : s.fetch = .error .addressOutOfRange := by
  rcases s.fetch_cases with ⟨_, hfetch⟩ | ⟨hin, _⟩
  · exact hfetch
  · omega

/-- A fault of the fetch is the fault of the step (R205, R206). -/
theorem step_of_fetch_error {s : State} {f : Fault} (hwait : s.waitValid = false) (hfetch : s.fetch = .error f) :
    step s = .fault f := by
  simp [step, hwait, hfetch, raise]

/-- Settles O6: up to 0xFFE the fetch is the two bytes at `pc` side by side; from 0xFFF on it faults, and so does the step. -/
theorem fetchReadsBigEndianWord : Obligations.FetchReadsBigEndianWord := fun _ =>
  ⟨fun hin => ⟨_, State.fetch_of_le hin, toNat_append_bytes _ _⟩,
    fun hpast => ⟨State.fetch_of_ge hpast, fun hwait => step_of_fetch_error hwait (State.fetch_of_ge hpast)⟩⟩

/-! ## The tick (R215) -/

@[simp] theorem tickTimer_zero : tickTimer 0 = 0 := rfl

theorem tickTimer_toNat_add_one {t : Byte} (h : t ≠ 0) : (tickTimer t).toNat + 1 = t.toNat := by
  have hpos : t.toNat ≠ 0 := fun h0 => h (BitVec.eq_of_toNat_eq h0)
  rw [tickTimer_toNat, Nat.sub_one_add_one hpos]

/-- The frame of a tick: no part but the two timers reads differently. -/
theorem State.tick_keepsAllBut (s : State) : KeepsAllBut [.dt, .st] s s.tick := by
  intro p hp
  cases p with
  | dt | st => exact absurd (by decide) hp
  | _ => simp [SamePart, State.isSet]

/-- Settles O16: each timer is ticked by `tickTimer`, which goes down by 1 from any value but 0 and stays at 0. -/
theorem tickDecrements : Obligations.TickDecrements := fun s =>
  have hzero {t : Byte} (h : t = 0) : tickTimer t = 0 := h ▸ tickTimer_zero
  ⟨tickTimer_toNat_add_one, hzero, tickTimer_toNat_add_one, hzero, s.tick_keepsAllBut⟩

end Sys2Proof.Machine
end

section
/-! PROOFS. Decoding and encoding (spec 30_encoding.md): the opcode map as a table. The row of each instruction stands at
its constructor's place, no row but that of SYS shares a word with a row above it, and a row's meaning encodes back to the
word that selected it. -/

namespace Sys2Proof

/-! ## The fields of an encoded format (R81, R82) -/

@[simp] theorem fieldNNN_encNNN (op : BitVec 4) (nnn : Addr12) : fieldNNN (encNNN op nnn) = nnn := by
  obtain ⟨b, c, d, rfl⟩ := addr12_eq_nibbles nnn
  rw [encNNN_nibbles, fieldNNN_nibbles]

@[simp] theorem fieldX_encXKK (op : BitVec 4) (x : Reg) (kk : Byte) : fieldX (encXKK op x kk) = x := by
  rw [encXKK_eq_nibbles, fieldX_nibbles]

@[simp] theorem fieldKK_encXKK (op : BitVec 4) (x : Reg) (kk : Byte) : fieldKK (encXKK op x kk) = kk := by
  obtain ⟨c, d, rfl⟩ := byte_eq_nibbles kk
  rw [encXKK_nibbles, fieldKK_nibbles]

@[simp] theorem fieldX_encXYN (op : BitVec 4) (x y n : Fin 16) : fieldX (encXYN op x y n) = x := fieldX_nibbles _ _ _ _

@[simp] theorem fieldY_encXYN (op : BitVec 4) (x y n : Fin 16) : fieldY (encXYN op x y n) = y := fieldY_nibbles _ _ _ _

@[simp] theorem fieldN_encXYN (op : BitVec 4) (x y n : Fin 16) : fieldN (encXYN op x y n) = n := fieldN_nibbles _ _ _ _

/-! ## The row of an instruction (R85) -/

/-- The laws of Laws/PerInstr.lean in one: an encoded word has the fixed bits of its instruction's row. -/
theorem encode_fixedBits (i : Instr) : Laws.FixedBits.Statement i := by
  cases i with
  | cls | ret => rfl
  | sys nnn | jp nnn | call nnn | ldI nnn | jpV0 nnn => exact Laws.FixedBits.encNNN_fixed _ nnn
  | seImm x kk | sneImm x kk | ldImm x kk | addImm x kk | rnd x kk => exact Laws.FixedBits.encXKK_fixed _ x kk
  | seReg x y | ldReg x y | orReg x y | andReg x y | xorReg x y | addReg x y | subReg x y | shr x y | subn x y
  | shl x y | sneReg x y => exact Laws.FixedBits.encXYS_fixed _ x y _
  | drw x y n => exact Laws.FixedBits.encXYN_fixed _ x y n
  | skp x | sknp x | ldVxDT x | ldVxK x | ldDTVx x | ldSTVx x | addIVx x | ldFVx x | ldBVx x | ldMemVx x
  | ldVxMem x => exact Laws.FixedBits.encXSS_fixed _ x _

/-- The rows stand in the order of the constructors: the row at an instruction's place tests its fixed bits and builds it
again from its word. -/
theorem opcodeRows_at_ctorIdx (i : Instr) :
    ∃ r, opcodeRows[i.ctorIdx]? = some r ∧ r.mask = (Laws.FixedBits.row i).1 ∧ r.bits = (Laws.FixedBits.row i).2 ∧
      r.build (encode i) = i := by
  cases i with
  | _ => exact ⟨_, rfl, rfl, rfl, by simp [encode]⟩

/-- Two rows whose fixed bits differ under both masks select no word in common. -/
theorem OpcodeRow.not_selects_both {r r' : OpcodeRow} {w : Word} (h : r.bits &&& r'.mask ≠ r'.bits &&& r.mask)
    (hr' : r'.selects w = true) : r.selects w = false := by
  simp only [OpcodeRow.selects, beq_iff_eq, beq_eq_false_iff_ne, ne_eq] at h hr' ⊢
  intro hr
  rw [← hr, ← hr', BitVec.and_assoc, BitVec.and_assoc, BitVec.and_comm r.mask] at h
  exact h rfl

/-- No row but that of SYS, whose fixed bits are 0, shares a word with a row above it. -/
theorem opcodeRows_pairwise :
    opcodeRows.Pairwise fun r r' => r.bits &&& r'.mask ≠ r'.bits &&& r.mask ∨ r'.bits = 0x0000 := by decide

theorem row_bits_eq_zero {i : Instr} (h : (Laws.FixedBits.row i).2 = 0x0000) : ∃ nnn, i = .sys nnn := by
  cases i with
  | sys nnn => exact ⟨nnn, rfl⟩
  | _ => simp [Laws.FixedBits.row] at h

/-! ## What the decoder answers (R85, R87, R89) -/

theorem decodeWord_of_find? {w : Word} {r : OpcodeRow} (h : opcodeRows.find? (fun r => r.selects w) = some r) :
    decodeWord w = .ok (r.build w) := by
  rw [decodeWord, h]

theorem exists_row_of_decodeWord_eq_ok {w : Word} {i : Instr} (h : decodeWord w = .ok i) :
    ∃ r ∈ opcodeRows, r.selects w = true ∧ r.build w = i := by
  cases hfind : opcodeRows.find? (fun r => r.selects w) with
  | none => rw [decodeWord, hfind] at h; cases h
  | some r =>
    rw [decodeWord_of_find? hfind] at h
    exact ⟨r, List.mem_of_find?_eq_some hfind, List.find?_some (p := fun r : OpcodeRow => r.selects w) hfind, Except.ok.inj h⟩

theorem decodeWord_eq_error_iff (w : Word) :
    decodeWord w = .error .unrecognizedOpcode ↔ ∀ r ∈ opcodeRows, r.selects w = false := by
  cases hfind : opcodeRows.find? (fun r => r.selects w) with
  | none => simpa [decodeWord, hfind] using List.find?_eq_none.1 hfind
  | some r =>
    have hr : r.selects w = true := List.find?_some (p := fun r : OpcodeRow => r.selects w) hfind
    simpa [decodeWord_of_find? hfind] using ⟨r, List.mem_of_find?_eq_some hfind, hr⟩

/-! ## Decoding an encoded instruction -/

/-- The words of the ill-formed terms are CLS and RET (R90). -/
theorem wellFormed_eq_false_iff (i : Instr) : i.wellFormed = false ↔ i = .sys 0x0E0 ∨ i = .sys 0x0EE := by
  cases i with
  | sys nnn => simp [Instr.wellFormed, imp_iff_not_or]
  | _ => simp [Instr.wellFormed]

/-- Below CLS and RET, SYS takes every other word of its family (R85). -/
theorem decodeWord_sys {w : Word} (hcls : w ≠ 0x00E0) (hret : w ≠ 0x00EE) (hsys : w &&& 0xF000 = 0x0000) :
    decodeWord w = .ok (.sys (fieldNNN w)) := by
  have hones : w &&& 0xFFFF = w := BitVec.and_allOnes
  have hfind : opcodeRows.find? (fun r => r.selects w) = some ⟨0xF000, 0x0000, fun w => .sys (fieldNNN w)⟩ := by
    refine (List.find?_cons_of_neg ?_).trans ((List.find?_cons_of_neg ?_).trans (List.find?_cons_of_pos ?_))
    · exact fun h => hcls (hones.symm.trans (beq_iff_eq.1 h))
    · exact fun h => hret (hones.symm.trans (beq_iff_eq.1 h))
    · exact beq_iff_eq.2 hsys
  exact decodeWord_of_find? hfind

theorem decodeWord_encode_sys {nnn : Addr12} (h : (Instr.sys nnn).wellFormed = true) :
    decodeWord (encode (.sys nnn)) = .ok (.sys nnn) := by
  have hne : ∀ n : Addr12, nnn ≠ n → encNNN 0x0 nnn ≠ encNNN 0x0 n := fun n hn he =>
    hn (by simpa using congrArg fieldNNN he)
  obtain ⟨hcls, hret⟩ : nnn ≠ 0x0E0 ∧ nnn ≠ 0x0EE := by simpa [Instr.wellFormed] using h
  rw [encode, decodeWord_sys (hne _ hcls) (hne _ hret) (Laws.FixedBits.sys nnn), fieldNNN_encNNN]

/-- Settles O1: the row of a well-formed instruction selects its word and builds the instruction again, and no row above it
selects that word; SYS, whose row overlaps the two above it, is apart. -/
theorem decodeOfEncode : Obligations.DecodeOfEncode := by
  intro i hwf
  obtain ⟨r, hat, hmask, hbits, hbuild⟩ := opcodeRows_at_ctorIdx i
  by_cases hzero : r.bits = 0x0000
  · obtain ⟨nnn, rfl⟩ := row_bits_eq_zero (hbits ▸ hzero)
    exact decodeWord_encode_sys hwf
  · have hselects : r.selects (encode i) = true := by
      rw [OpcodeRow.selects, hmask, hbits]
      exact beq_iff_eq.2 (encode_fixedBits i)
    obtain ⟨hlt, hr⟩ := List.getElem?_eq_some_iff.1 hat
    have hfind : opcodeRows.find? (fun r => r.selects (encode i)) = some r := by
      refine List.find?_eq_some_iff_getElem.2 ⟨hselects, i.ctorIdx, hlt, hr, fun j hj => ?_⟩
      have hapart := (List.pairwise_iff_getElem.1 opcodeRows_pairwise j i.ctorIdx (hj.trans hlt) hlt hj)
      rw [hr] at hapart
      simpa using OpcodeRow.not_selects_both (hapart.resolve_right hzero) hselects
    rw [decodeWord_of_find? hfind, hbuild]

/-! ## Encoding a decoded word -/

/-- A row's meaning of a word it selects encodes to that word: the fixed bits are the row's, every other bit is an operand's
(R82). -/
theorem encode_build {r : OpcodeRow} {w : Word} (hr : r ∈ opcodeRows) (hw : r.selects w = true) :
    encode (r.build w) = w := by
  obtain ⟨a, b, c, d, rfl⟩ := word_eq_nibbles w
  revert r
  simp only [opcodeRows, rowsControl, rowsSkipLoad, rowsAlu, rowsMisc, rowsTimerMemory, List.forall_mem_append,
    List.forall_mem_cons, encode, fieldX_nibbles, fieldY_nibbles, fieldN_nibbles, fieldNNN_nibbles, fieldKK_nibbles,
    OpcodeRow.selects_nibbles, encNNN_nibbles, encXKK_nibbles, encXYN_nibbles]
  simp +contextual [encXKK_eq_nibbles]

/-- Settles O2: the row that decodes a word encodes back to it, and the two ill-formed terms encode to words that decode
otherwise. -/
theorem encodeOfDecode : Obligations.EncodeOfDecode := by
  intro w i h
  obtain ⟨r, hmem, hselects, hbuild⟩ := exists_row_of_decodeWord_eq_ok h
  have hencode : encode i = w := hbuild ▸ encode_build hmem hselects
  refine ⟨?_, hencode⟩
  by_contra hill
  rcases (wellFormed_eq_false_iff _).1 (Bool.not_eq_true _ ▸ hill) with hi | hi
  all_goals
    rw [← hencode, hi] at h
    exact absurd h (by decide)

/-! ## The words of no instruction (R87) -/

theorem toNat_nibbles (a b c d : BitVec 4) :
    (a ++ b ++ c ++ d : Word).toNat = a.toNat * 0x1000 + b.toNat * 0x100 + c.toNat * 0x10 + d.toNat := by
  rw [BitVec.toNat_append, BitVec.toNat_append, BitVec.toNat_append, ← Nat.shiftLeft_add_eq_or_of_lt d.isLt,
    ← Nat.shiftLeft_add_eq_or_of_lt c.isLt, ← Nat.shiftLeft_add_eq_or_of_lt b.isLt]
  omega

/-- A byte of two nibbles has a given value when each nibble has its. -/
theorem nibbles_eq_number_iff {c d : Nat} (hd : d < 0x10) (n : Nat) :
    c * 0x10 + d = n ↔ c = n / 0x10 ∧ d = n % 0x10 := by omega

/-- Settles O3: the rows' tests and the listed numbers both speak of the leading nibble and the last two, and agree for each
leading nibble. -/
theorem unrecognizedWordsExactly : Obligations.UnrecognizedWordsExactly := by
  intro w
  obtain ⟨a, b, c, d, rfl⟩ := word_eq_nibbles w
  have hw := toNat_nibbles a b c d
  have hb := b.isLt
  have hc := c.isLt
  have hd := d.isLt
  have hlead : (a ++ b ++ c ++ d : Word).toNat / 0x1000 = a.toNat := by omega
  have hbyte : (a ++ b ++ c ++ d : Word).toNat % 0x100 = c.toNat * 0x10 + d.toNat := by omega
  have hlast : (a ++ b ++ c ++ d : Word).toNat % 0x10 = d.toNat := by omega
  rw [decodeWord_eq_error_iff, hlead, hbyte, hlast]
  clear hw hlead hbyte hlast
  simp only [opcodeRows, rowsControl, rowsSkipLoad, rowsAlu, rowsMisc, rowsTimerMemory, List.forall_mem_append,
    List.forall_mem_cons, OpcodeRow.selects_nibbles]
  obtain ⟨a⟩ := a
  fin_cases a <;> simp [← BitVec.toNat_inj, nibbles_eq_number_iff hd]
  omega -- family 8, where the listed sub-opcodes and those of the rows make up all sixteen

/-- Settles O4: each word is the one its instruction encodes to, and 0xFFFF is among the words of no instruction. -/
theorem writtenWordsDecode : Obligations.WrittenWordsDecode :=
  ⟨decodeOfEncode .cls rfl, decodeOfEncode .ret rfl, decodeOfEncode (.sys 0x123) rfl, decodeOfEncode (.jp 0x234) rfl,
    decodeOfEncode (.call 0x210) rfl, decodeOfEncode (.seImm 3 0x2A) rfl, decodeOfEncode (.sneImm 3 0x2A) rfl,
    decodeOfEncode (.seReg 1 2) rfl, decodeOfEncode (.ldImm 0 0x05) rfl, decodeOfEncode (.addImm 0 0x03) rfl,
    decodeOfEncode (.addReg 1 2) rfl, decodeOfEncode (.sneReg 1 2) rfl, decodeOfEncode (.ldI 0x2F0) rfl,
    decodeOfEncode (.jpV0 0x300) rfl, decodeOfEncode (.rnd 1 0x0F) rfl, decodeOfEncode (.drw 1 2 5) rfl,
    decodeOfEncode (.skp 4) rfl, decodeOfEncode (.ldVxK 3) rfl, decodeOfEncode (.ldVxMem 2) rfl,
    (unrecognizedWordsExactly 0xFFFF).2 (by decide)⟩

end Sys2Proof
end

section
/-! PROOFS. The step (spec 50_engine_and_interface.md R205, 60_exceptions.md): what it runs, the exact table of faults, and
what a fault leaves. -/

namespace Sys2Proof.Machine

/-! ## The step, forwards (R205) -/

theorem step_of_decode {s : State} {w : Word} {i : Instr} (hwait : s.waitValid = false) (hfetch : s.fetch = .ok w)
    (hdecode : decodeWord w = .ok i) : step s = endStep (exec i s.beginStep) := by
  simp [step, hwait, hfetch, hdecode]

theorem step_of_decode_error {s : State} {w : Word} {e : Reject} (hwait : s.waitValid = false)
    (hfetch : s.fetch = .ok w) (hdecode : decodeWord w = .error e) : step s = .fault .unrecognizedOpcode := by
  simp [step, hwait, hfetch, hdecode, raise]

/-- Settles O5: the bytes at `pc` are what the step fetches, and `beginStep` is the two fields set before executing. -/
theorem stepRunsDecodedInstruction : Obligations.StepRunsDecodedInstruction := by
  intro s i hwait hpc hdecode
  have hstep := step_of_decode hwait (State.fetch_of_le hpc) hdecode
  refine ⟨fun t hexec => ?_, fun f hexec => ?_⟩
  · rw [hstep, show exec i s.beginStep = .next t from hexec, endStep_next]
  · rw [hstep, show exec i s.beginStep = .fault f from hexec, endStep_fault]

/-! ## The table of faults (60_exceptions.md R239, R240) -/

/-- An instruction faults with what the table gives, and completes in `after` where it gives nothing. -/
theorem exec_eq_elim_faultTable (i : Instr) (s : State) :
    exec i s = (faultTable i s).elim (.next (after i s)) .fault := by
  cases i
  case ret =>
    rcases exec_ret_cases s with ⟨h, e⟩ | ⟨h, e⟩
    · simp [e, faultTable, h]
    · simp [e, faultTable, after, h, Nat.ne_of_gt h]
  case jp n =>
    rcases exec_jp_cases n s with ⟨h, e⟩ | ⟨h, e⟩
    · simp [e, faultTable, h]
    · simp [e, faultTable, after, Nat.not_lt.2 h]
  case call n =>
    rcases exec_call_cases n s with ⟨h, e⟩ | ⟨h, h', e⟩ | ⟨h, h', e⟩
    · simp [e, faultTable, h]
    · simp [e, faultTable, Nat.not_lt.2 h, h']
    · simp [e, faultTable, after, Nat.not_lt.2 h', h, Nat.ne_of_lt h]
  case jpV0 n =>
    rcases exec_jpV0_cases n s with ⟨h, e⟩ | ⟨h, h', e⟩
    · rw [e, faultTable, ← offsetTarget, if_pos h]; rfl
    · rw [e, faultTable, ← offsetTarget, if_neg (by omega)]; rfl
  case drw x y n =>
    rcases exec_drw_cases x y n s with ⟨h, h', e⟩ | ⟨h, e⟩
    · rw [e, faultTable, if_pos ⟨h, by omega⟩]; rfl
    · rw [e, faultTable, if_neg (by omega)]; rfl
  case ldBVx x =>
    rcases exec_ldBVx_cases x s with ⟨h, e⟩ | ⟨h, e⟩
    · rw [e, faultTable, if_pos (by omega)]; rfl
    · rw [e, faultTable, if_neg (by omega)]; rfl
  case ldMemVx x =>
    rcases exec_ldMemVx_cases x s with ⟨h, e⟩ | ⟨h, e⟩
    · rw [e, faultTable, if_pos (by omega)]; rfl
    · rw [e, faultTable, if_neg (by omega)]; rfl
  case ldVxMem x =>
    rcases exec_ldVxMem_cases x s with ⟨h, e⟩ | ⟨h, e⟩
    · rw [e, faultTable, if_pos (by omega)]; rfl
    · rw [e, faultTable, if_neg (by omega)]; rfl
  all_goals rfl

/-- The table reads the registers, `I` and the number of stack entries only. -/
theorem faultTable_congr (i : Instr) {s t : State} (hv : t.v = s.v) (hi : t.i = s.i) (hsp : t.sp = s.sp) :
    faultTable i t = faultTable i s := by
  cases i <;> simp only [faultTable, hv, hi, hsp]

theorem exec_eq_fault_iff {i : Instr} {s : State} {f : Fault} : exec i s = .fault f ↔ faultTable i s = some f := by
  rw [exec_eq_elim_faultTable]
  cases faultTable i s <;> simp

theorem exec_of_faultTable_eq_none {i : Instr} {s : State} (h : faultTable i s = none) :
    exec i s = .next (after i s) := by
  rw [exec_eq_elim_faultTable, h, Option.elim_none]

/-- No step is refused: `exec` answers by the table, and fetch and decode only fault. -/
theorem step_ne_refused (s : State) (r : Refusal) : step s ≠ .refused r := by
  intro h
  rcases step_cases s with ⟨_, e⟩ | ⟨_, _, e⟩ | ⟨_, _, _, _, _, _, e⟩ | ⟨_, i, _, _, _, _, e⟩
  all_goals rw [e] at h
  · cases h
  · cases h
  · cases h
  · rw [exec_eq_elim_faultTable] at h
    cases hfault : faultTable i s.beginStep <;> rw [hfault] at h <;> cases h

/-- Settles O9: `exec` is the table of faults with `after` where it gives none. -/
theorem faultTableExact : Obligations.FaultTableExact := by
  refine ⟨fun i s => ?_, step_ne_refused⟩
  cases h : faultTable i s with
  | some f => exact exec_eq_fault_iff.2 h
  | none => exact ⟨_, exec_of_faultTable_eq_none h⟩

/-! ## After a fault (60_exceptions.md R236, R238) -/

/-- All a faulting step can be: a fault of fetch, decode or the instruction, never of a waiting core (R239, R240). -/
theorem step_eq_fault_cases {s : State} {f : Fault} (h : step s = .fault f) :
    s.waitValid = false ∧
      (s.fetch = .error f ∨
      (∃ w e, s.fetch = .ok w ∧ decodeWord w = .error e ∧ f = .unrecognizedOpcode) ∨
      ∃ w i, s.fetch = .ok w ∧ decodeWord w = .ok i ∧ faultTable i s.beginStep = some f) := by
  rcases step_cases s with ⟨_, e⟩ | ⟨hw, hp, e⟩ | ⟨w, r, hw, _, hf, hd, e⟩ | ⟨w, i, hw, _, hf, hd, e⟩
  all_goals rw [e] at h
  · cases h
  · cases h
    exact ⟨hw, .inl (State.fetch_of_ge hp)⟩
  · cases h
    exact ⟨hw, .inr (.inl ⟨w, r, hf, hd, rfl⟩)⟩
  · exact ⟨hw, .inr (.inr ⟨w, i, hf, hd, exec_eq_fault_iff.1 (endStep_eq_fault h)⟩)⟩

theorem State.stepOn_of_fault {s : State} {f : Fault} (h : step s = .fault f) :
    s.stepOn = (s.afterFault f).hostMoves := by
  rw [State.stepOn, h]

/-- Settles O7: `afterFault` and the host's turn write neither `pc`, `I` nor a register. -/
theorem unrecognizedWordFaults : Obligations.UnrecognizedWordFaults := by
  intro s hwait hpc hdecode
  have hstep := step_of_decode_error hwait (State.fetch_of_le hpc) hdecode
  rw [State.stepOn_of_fault hstep]
  exact ⟨hstep, rfl, rfl, fun _ _ => rfl⟩

theorem State.afterFault_keepsAllBut (s : State) (f : Fault) : KeepsAllBut [.booted, .outcome] s (s.afterFault f) := by
  intro p hp
  cases p with
  | booted | outcome => exact absurd (by decide) hp
  | _ => simp [SamePart, State.isSet]

theorem State.hostMoves_keepsAllBut (s : State) : KeepsAllBut [.dt, .st, .host] s s.hostMoves := by
  intro p hp
  cases p with
  | dt | st | host => exact absurd (by decide) hp
  | _ => simp [SamePart, State.isSet]

/-- Settles O10: what is left is `afterFault`, then the host's turn; their frames compose. -/
theorem faultChangesNothing : Obligations.FaultChangesNothing := by
  intro s f h
  have hafter := s.afterFault_keepsAllBut f
  rw [State.stepOn_of_fault h]
  exact ⟨rfl, hafter, rfl, rfl, hafter.trans (s.afterFault f).hostMoves_keepsAllBut⟩

/-- Settles O11: the fetched word and the instruction's row in the table read nothing that `afterFault` or the host's turn
writes. -/
theorem faultRepeats : Obligations.FaultRepeats := by
  intro s f h
  rw [State.stepOn_of_fault h]
  obtain ⟨hwait, hfetch | ⟨w, e, hfetch, hdecode, rfl⟩ | ⟨w, i, hfetch, hdecode, hfault⟩⟩ := step_eq_fault_cases h
  · exact step_of_fetch_error hwait hfetch
  · exact step_of_decode_error hwait hfetch hdecode
  · have hfault' : faultTable i (s.afterFault f).hostMoves.beginStep = some f :=
      (faultTable_congr i rfl rfl rfl).trans hfault
    rw [step_of_decode (s := (s.afterFault f).hostMoves) hwait hfetch hdecode, exec_eq_fault_iff.2 hfault', endStep_fault]

/-- Settles O17: the host's turn counts each timer down by its number of ticks, which is that many `tickTimer`s. -/
theorem hostTurnOnlyTicks : Obligations.HostTurnOnlyTicks := fun s =>
  ⟨(s.iterate_tick_dt _).symm, (s.iterate_tick_st _).symm, s.hostMoves_keepsAllBut⟩

end Sys2Proof.Machine
end

section
/-! PROOFS. Whole-machine rules (spec 10_state.md sections 2 to 11): what an instruction may write, said once for all 35,
and what follows for registers, memory, the other parts and the inputs. -/

namespace Sys2Proof.Machine

/-! ## Frames of the remaining updates -/

theorem State.setST_keepsAllBut (s : State) (b : Byte) : KeepsAllBut [.st] s (s.setST b) := by
  intro p hp
  cases p with
  | st => exact absurd List.mem_cons_self hp
  | _ => simp [SamePart, State.isSet]

theorem State.setMem_keepsAllBut (s : State) (m : Memory) : KeepsAllBut [.memory] s (s.setMem m) := by
  intro p hp
  cases p with
  | memory => exact absurd List.mem_cons_self hp
  | _ => simp [SamePart, State.isSet]

theorem State.setRegs_keepsAllBut (s : State) (v : Vector Byte 16) : KeepsAllBut [.regs] s (s.setRegs v) := by
  intro p hp
  cases p with
  | regs => exact absurd List.mem_cons_self hp
  | _ => simp [SamePart, State.isSet]

theorem State.setStack_keepsAllBut (s : State) (stack : Vector Word 16) (sp : Fin 17) :
    KeepsAllBut [.stack] s (s.setStack stack sp) := by
  intro p hp
  cases p with
  | stack => exact absurd List.mem_cons_self hp
  | _ => simp [SamePart, State.isSet]

theorem State.setWait_keepsAllBut (s : State) (valid : Bool) (x : Reg) (prev : BitVec 16) :
    KeepsAllBut [.wait] s (s.setWait valid x prev) := by
  intro p hp
  cases p with
  | wait => exact absurd List.mem_cons_self hp
  | _ => simp [SamePart, State.isSet]

theorem State.setOutcome_keepsAllBut (s : State) (o : StepOutcome) : KeepsAllBut [.outcome] s (s.setOutcome o) := by
  intro p hp
  cases p with
  | outcome => exact absurd List.mem_cons_self hp
  | _ => simp [SamePart, State.isSet]

theorem State.setST_advance_keepsAllBut (s : State) (b : Byte) : KeepsAllBut [.st, .pc] s (s.setST b).advance :=
  (s.setST_keepsAllBut b).trans (s.setST b).advance_keepsAllBut

theorem State.setMem_advance_keepsAllBut (s : State) (m : Memory) :
    KeepsAllBut [.memory, .pc] s (s.setMem m).advance :=
  (s.setMem_keepsAllBut m).trans (s.setMem m).advance_keepsAllBut

theorem State.setRegs_advance_keepsAllBut (s : State) (v : Vector Byte 16) :
    KeepsAllBut [.regs, .pc] s (s.setRegs v).advance :=
  (s.setRegs_keepsAllBut v).trans (s.setRegs v).advance_keepsAllBut

theorem State.setFb_setV_advance_keepsAllBut (s : State) (fb : Framebuffer) (x : Reg) (b : Byte) :
    KeepsAllBut [.pixels, .regs, .pc] s ((s.setFb fb).setV x b).advance :=
  (s.setFb_keepsAllBut fb).trans ((s.setFb fb).setV_advance_keepsAllBut x b)

theorem KeepsAllBut.refl (l : List Part) (s : State) : KeepsAllBut l s s := by
  intro p _
  cases p <;> simp [SamePart]

/-! ## The two next states that depend on the stack's depth -/

theorem after_ret {s : State} (h : 1 ≤ s.sp.val) :
    after .ret s = (s.setStack s.stack ⟨s.sp.val - 1, by omega⟩).setPc s.stack[s.sp.val - 1] := dif_pos h

theorem after_ret_empty {s : State} (h : ¬1 ≤ s.sp.val) : after .ret s = s := dif_neg h

theorem after_call {nnn : Addr12} {s : State} (h : s.sp.val < 16) : after (.call nnn) s =
    (s.setPc (BitVec.ofNat 16 nnn.toNat)).setStack (s.stack.set s.sp.val (s.pc + 2) h) ⟨s.sp.val + 1, by omega⟩ :=
  dif_pos h

theorem after_call_full {nnn : Addr12} {s : State} (h : ¬s.sp.val < 16) : after (.call nnn) s = s := dif_neg h

/-! ## The parts an instruction may write (10_state.md R20 to R42) -/

def writtenParts (i : Instr) : List Part :=
  match i with
  | .cls => [.pixels, .pc]
  | .ret => [.stack, .pc]
  | .call _ => [.pc, .stack]
  | .sys _ | .jp _ | .jpV0 _ | .seImm _ _ | .sneImm _ _ | .seReg _ _ | .sneReg _ _ | .skp _ | .sknp _ => [.pc]
  | .ldImm _ _ | .addImm _ _ | .ldReg _ _ | .orReg _ _ | .andReg _ _ | .xorReg _ _ | .addReg _ _ | .subReg _ _
  | .shr _ _ | .subn _ _ | .shl _ _ | .rnd _ _ | .ldVxDT _ | .ldVxMem _ => [.regs, .pc]
  | .ldI _ | .addIVx _ | .ldFVx _ => [.index, .pc]
  | .drw _ _ _ => [.pixels, .regs, .pc]
  | .ldVxK _ => [.wait, .outcome]
  | .ldDTVx _ => [.dt, .pc]
  | .ldSTVx _ => [.st, .pc]
  | .ldBVx _ | .ldMemVx _ => [.memory, .pc]

theorem after_keepsAllBut (i : Instr) (s : State) : KeepsAllBut (writtenParts i) s (after i s) := by
  cases i with
  | cls => exact s.setFb_advance_keepsAllBut blankFb
  | ret =>
    by_cases h : 1 ≤ s.sp.val
    · exact after_ret h ▸ (s.setStack_keepsAllBut _ _).trans (State.setPc_keepsAllBut _ _)
    · exact (after_ret_empty h).symm ▸ KeepsAllBut.refl _ s
  | call nnn =>
    by_cases h : s.sp.val < 16
    · exact after_call h ▸ (s.setPc_keepsAllBut _).trans (State.setStack_keepsAllBut _ _ _)
    · exact (after_call_full h).symm ▸ KeepsAllBut.refl _ s
  | sys | jp | jpV0 | seImm | sneImm | seReg | sneReg | skp | sknp => exact s.setPc_keepsAllBut _
  | ldImm | addImm | ldReg | orReg | andReg | xorReg | rnd | ldVxDT => exact s.setV_advance_keepsAllBut _ _
  | addReg | subReg | shr | subn | shl => exact s.setResultThenFlag_advance_keepsAllBut _ _ _
  | ldVxMem => exact s.setRegs_advance_keepsAllBut _
  | ldI | addIVx | ldFVx => exact s.setI_advance_keepsAllBut _
  | drw => exact s.setFb_setV_advance_keepsAllBut _ _ _
  | ldVxK => exact (s.setWait_keepsAllBut _ _ _).trans (State.setOutcome_keepsAllBut _ _)
  | ldDTVx => exact s.setDT_advance_keepsAllBut _
  | ldSTVx => exact s.setST_advance_keepsAllBut _
  | ldBVx | ldMemVx => exact s.setMem_advance_keepsAllBut _

/-- What an instruction leaves alone: every part but those it writes. -/
theorem exec_keepsAllBut {i : Instr} {s t : State} (h : exec i s = .next t) : KeepsAllBut (writtenParts i) s t :=
  eq_after_of_exec_next h ▸ after_keepsAllBut i s

/-- Settles O41: each part is kept by the instructions that do not have it among their written parts. -/
theorem eachPartHasItsWriters : Obligations.EachPartHasItsWriters := by
  intro i s t h
  have hkeeps := exec_keepsAllBut h
  refine ⟨fun hcall hret => hkeeps .stack ?_, fun hdt => hkeeps .dt ?_, fun hst => hkeeps .st ?_,
    fun hcls hdrw => hkeeps .pixels ?_, fun hwait => ⟨hkeeps .wait ?_, hkeeps .outcome ?_⟩,
    fun hldI hadd hldF => hkeeps .index ?_, hkeeps .booted ?_, hkeeps .host ?_⟩
  all_goals
    clear hkeeps h
    cases i <;> simp_all [writtenParts]

/-! ## Registers (10_state.md R23, R24) -/

/-- Settles O38: the five results with a flag and the draw all write VF last, by `flagByte`. -/
theorem flagIsZeroOrOne : Obligations.FlagIsZeroOrOne := by
  intro i s t hflag h
  rw [eq_after_of_exec_next h]
  cases i with
  | addReg | subReg | shr | subn | shl =>
    rw [after, State.advance_v, State.getElem_setResultThenFlag_VF]
    exact flagByte_eq_zero_or_one _
  | drw =>
    rw [after, State.advance_v, State.getElem_setV_self]
    exact flagByte_eq_zero_or_one _
  | _ => cases hflag

/-- The register file after `LD Vx, [I]`: the block's bytes up to `V[X]`, the old values above (R187). -/
theorem getElem_after_ldVxMem (x r : Reg) (s : State) :
    (after (.ldVxMem x) s).v[r] = if r ≤ x then Memory.get s.mem (s.i.toNat + r.val) else s.v[r] := by
  rw [after, State.advance_v, State.setRegs_v, getElem_loadRegisters]
  split
  next h =>
    have hr : r.val < x.val + 1 := Nat.lt_succ_of_le h
    simp [hr]
  next h =>
    have hr : x.val + 1 ≤ r.val := Nat.lt_of_not_le h
    rw [List.getElem?_eq_none (by simpa using hr), Option.getD_none]

/-- Settles O39: an instruction that writes registers writes one destination, one and then VF, VF alone, or the block from
`V[0]` to `V[X]`. -/
theorem onlyDestinationsChange : Obligations.OnlyDestinationsChange := by
  intro i s t r h hdest hflag
  by_cases hregs : Part.regs ∈ writtenParts i
  case neg => exact exec_keepsAllBut h .regs hregs r
  rw [eq_after_of_exec_next h]
  cases i with
  | ldImm | addImm | ldReg | orReg | andReg | xorReg | rnd | ldVxDT => exact s.setV_keepsRegsBut _ _ r hdest
  | addReg | subReg | shr | subn | shl =>
    refine s.setResultThenFlag_keepsRegsBut _ _ _ r fun hmem => ?_
    rcases List.mem_cons.1 hmem with hx | hVF
    · exact hdest (hx ▸ List.mem_singleton_self _)
    · exact hflag rfl (List.mem_singleton.1 hVF)
  | drw => exact (s.setFb _).getElem_setV_of_ne _ (hflag rfl)
  | ldVxMem x =>
    have hx : ¬r ≤ x := by simpa [destinations] using hdest
    rw [getElem_after_ldVxMem, if_neg hx]
  | _ => simp [writtenParts] at hregs

/-! ## Memory (10_state.md section 9) -/

/-- A byte outside those an instruction stores to is the old one. -/
theorem byteAfterStore_of_outside (i : Instr) (s : State) {a : Nat}
    (h : ¬((storedBytes i s).1 ≤ a ∧ a < (storedBytes i s).1 + (storedBytes i s).2)) :
    byteAfterStore i s a = Memory.get s.mem a := by
  cases i with
  | ldBVx x =>
    simp only [storedBytes] at h
    rw [byteAfterStore, if_neg (by omega), if_neg (by omega), if_neg (by omega)]
  | ldMemVx x =>
    simp only [storedBytes] at h
    rw [byteAfterStore, dif_neg (by omega)]
  | _ => rfl

/-- Settles O40: after an instruction every byte is `byteAfterStore`, which is the old byte outside the stored ones. -/
theorem onlyStoresChangeMemory : Obligations.OnlyStoresChangeMemory := fun i s _ h a ha =>
  (get_mem_of_exec_next h a).trans (byteAfterStore_of_outside i s ha)

/-- Settles O43: no address of the font region is among the stored ones. -/
theorem fontIntactWithoutLowStores : Obligations.FontIntactWithoutLowStores := by
  intro i s t hfont h hstores a ha
  have ha' : a < 0x200 := ha
  rw [onlyStoresChangeMemory i s t h a (by omega), hfont a ha]

/-- Settles O57: a fetch reads the two bytes at `pc`, and every byte after the instruction is `byteAfterStore`. -/
theorem fetchSeesStore : Obligations.FetchSeesStore := by
  intro i s t u h hmem hpc
  rw [State.fetch_of_le hpc, hmem, hmem, get_mem_of_exec_next h, get_mem_of_exec_next h]

/-! ## Inputs (10_state.md R39, R40, R42) -/

/-- Beside another host the next state is the same but for the host's side, unless the instruction reads a port. -/
theorem after_withHost {i : Instr} (s : State) (script : List HostTurn) (turn : Nat) (h : readsInputs i = false) :
    after i (s.withHost script turn) = (after i s).withHost script turn := by
  cases i with
  | ret =>
    by_cases hsp : 1 ≤ s.sp.val
    · rw [after_ret hsp, after_ret (s := s.withHost script turn) hsp]; rfl
    · rw [after_ret_empty hsp, after_ret_empty (s := s.withHost script turn) hsp]
  | call =>
    by_cases hsp : s.sp.val < 16
    · rw [after_call hsp, after_call (s := s.withHost script turn) hsp]; rfl
    · rw [after_call_full hsp, after_call_full (s := s.withHost script turn) hsp]
  | rnd | skp | sknp | ldVxK => cases h
  | _ => rfl

/-- Settles O42: neither the fault an instruction raises nor its next state depends on the host's side. -/
theorem inputsEnterOnlyThroughPorts : Obligations.InputsEnterOnlyThroughPorts := by
  intro i s script turn h
  rw [exec_eq_elim_faultTable, exec_eq_elim_faultTable, faultTable_congr i (s := s) (t := s.withHost script turn) rfl rfl rfl,
    after_withHost s _ _ h]
  cases faultTable i s <;> rfl

end Sys2Proof.Machine
end

section
/-! PROOFS. Reset, the invariant and the transactions (spec 10_state.md sections 5 and 6, 50_engine_and_interface.md): one
lemma per clause of the invariant on what an instruction that completes does to it. -/

namespace Sys2Proof.Machine

/-! ## What an instruction does to each field the invariant speaks of -/

/-- An instruction either keeps the outcome port and the wait, or is `LD Vx, K` and sets both (R211, R172). -/
theorem exec_wait_cases {i : Instr} {s t : State} (h : exec i s = .next t) :
    (t.outcome = s.outcome ∧ t.waitValid = s.waitValid) ∨
    (t.outcome = some .awaitingKey ∧ t.waitValid = true ∧ t.pc = s.pc) := by
  by_cases hi : ∃ x, i = .ldVxK x
  · obtain ⟨x, rfl⟩ := hi
    rw [eq_after_of_exec_next h]
    exact .inr ⟨rfl, rfl, rfl⟩
  · obtain ⟨_, _, _, _, hwait, _⟩ := eachPartHasItsWriters i s t h
    obtain ⟨⟨hvalid, _⟩, hout⟩ := hwait fun x hx => hi ⟨x, hx⟩
    exact .inl ⟨hout, hvalid⟩

/-- An instruction that completes keeps the canonical form: what it stores lies inside the address space (R54, R56). -/
theorem wf_mem_of_exec_next {i : Instr} {s t : State} (h : exec i s = .next t) (hwf : Memory.wf s.mem = true) :
    Memory.wf t.mem = true := by
  rw [eq_after_of_exec_next h]
  cases i with
  | ldBVx x =>
    rcases exec_ldBVx_cases x s with ⟨_, e⟩ | ⟨hin, _⟩
    · rw [e] at h; cases h
    · exact Memory.wf_putAll s.mem _ _ hwf (by simpa using hin)
  | ldMemVx x =>
    rcases exec_ldMemVx_cases x s with ⟨_, e⟩ | ⟨hin, _⟩
    · rw [e] at h; cases h
    · exact Memory.wf_putAll s.mem _ _ hwf (by simpa using hin)
  | ret =>
    by_cases hsp : 1 ≤ s.sp.val
    · rw [after_ret hsp]; exact hwf
    · rw [after_ret_empty hsp]; exact hwf
  | call =>
    by_cases hsp : s.sp.val < 16
    · rw [after_call hsp]; exact hwf
    · rw [after_call_full hsp]; exact hwf
  | _ => simpa [after] using hwf

/-- Where an instruction that completes can leave `pc`: where it was, one or two instructions on, at a checked target, or at
the newest valid return address (10_state.md R27, 20_memory.md R61). -/
theorem exec_pc_cases {i : Instr} {s t : State} (h : exec i s = .next t) :
    t.pc = s.pc ∨ t.pc = s.pc + 2 ∨ t.pc = s.pc + 4 ∨ (0x200 ≤ t.pc.toNat ∧ t.pc.toNat ≤ 0xFFF) ∨
    ∃ k : Fin 16, k.val < s.sp.val ∧ t.pc = s.stack[k] := by
  cases i with
  | ret =>
    rcases exec_ret_cases s with ⟨_, e⟩ | ⟨hsp, e⟩ <;> rw [e] at h <;> cases h
    exact .inr (.inr (.inr (.inr ⟨⟨s.sp.val - 1, by omega⟩, Nat.sub_lt hsp Nat.one_pos, rfl⟩)))
  | jp n =>
    rcases exec_jp_cases n s with ⟨_, e⟩ | ⟨hlow, e⟩ <;> rw [e] at h <;> cases h
    refine .inr (.inr (.inr (.inl ?_)))
    rw [State.setPc_pc, toNat_ofNat_addr12]
    exact ⟨hlow, Nat.le_of_lt_succ n.isLt⟩
  | call n =>
    rcases exec_call_cases n s with ⟨_, e⟩ | ⟨_, _, e⟩ | ⟨_, hlow, e⟩ <;> rw [e] at h <;> cases h
    refine .inr (.inr (.inr (.inl ?_)))
    rw [State.setStack_pc, State.setPc_pc, toNat_ofNat_addr12]
    exact ⟨hlow, Nat.le_of_lt_succ n.isLt⟩
  | jpV0 n =>
    rcases exec_jpV0_cases n s with ⟨_, e⟩ | ⟨hlow, hhigh, e⟩ <;> rw [e] at h <;> cases h
    refine .inr (.inr (.inr (.inl ?_)))
    rw [State.setPc_pc, BitVec.toNat_ofNat, Nat.mod_eq_of_lt (by omega)]
    exact ⟨hlow, hhigh⟩
  | seImm | sneImm | seReg | sneReg | skp | sknp =>
    rw [eq_after_of_exec_next h, after, State.skipIf_pc]
    split
    · exact .inr (.inr (.inl rfl))
    · exact .inr (.inl rfl)
  | ldVxK => exact .inl (exec_keepsAllBut h .pc (by simp [writtenParts]))
  | _ =>
    rw [eq_after_of_exec_next h]
    exact .inr (.inl (by simp [after]))

/-- A valid stack entry after an instruction was valid before, or is the return address a CALL has pushed (R29). -/
theorem exec_stack_cases {i : Instr} {s t : State} (h : exec i s = .next t) (k : Fin 16) (hk : k.val < t.sp.val) :
    (k.val < s.sp.val ∧ t.stack[k] = s.stack[k]) ∨ t.stack[k] = s.pc + 2 := by
  cases i with
  | ret =>
    rcases exec_ret_cases s with ⟨_, e⟩ | ⟨hsp, e⟩ <;> rw [e] at h <;> cases h
    simp only [State.setPc_sp, State.setStack_sp] at hk
    exact .inl ⟨by omega, rfl⟩
  | call n =>
    rcases exec_call_cases n s with ⟨_, e⟩ | ⟨_, _, e⟩ | ⟨hsp, _, e⟩ <;> rw [e] at h <;> cases h
    simp only [State.setStack_sp] at hk
    by_cases htop : s.sp.val = k.val
    · exact .inr (by simp [htop])
    · exact .inl ⟨by omega, by simp [htop]⟩
  | _ =>
    obtain ⟨hsp, hstack⟩ := exec_keepsAllBut h .stack (by simp [writtenParts])
    exact .inl ⟨hsp ▸ hk, hstack k⟩

/-! ## What a step that completes reports (R205, R211) -/

/-- All a step that completes can be: the wait resumed or an instruction executed, then the host's turn. -/
theorem step_eq_next_cases {s t : State} (h : step s = .next t) :
    ∃ u, t = u.hostMoves ∧
      ((s.waitValid = true ∧ u = s.beginStep.resumeWait) ∨
      (s.waitValid = false ∧ s.pc.toNat ≤ 0xFFE ∧ ∃ i, exec i s.beginStep = .next u)) := by
  rcases step_cases s with ⟨hw, e⟩ | ⟨_, _, e⟩ | ⟨_, _, _, _, _, _, e⟩ | ⟨_, i, hw, hp, _, _, e⟩
  all_goals rw [e] at h
  · cases h
    exact ⟨_, rfl, .inl ⟨hw, rfl⟩⟩
  · cases h
  · cases h
  · obtain ⟨u, hexec, ht⟩ := endStep_eq_next h
    exact ⟨u, ht, .inr ⟨hw, hp, i, hexec⟩⟩

/-- What a step has reported before the host's turn: Continue and no wait, or AwaitingKey and a wait. -/
theorem step_reports {s t : State} (h : step s = .next t) :
    t.booted = true ∧
      ((t.outcome = some .continued ∧ t.waitValid = false) ∨ (t.outcome = some .awaitingKey ∧ t.waitValid = true)) := by
  obtain ⟨u, rfl, ⟨_, rfl⟩ | ⟨hw, _, i, hexec⟩⟩ := step_eq_next_cases h
  · rcases s.beginStep.resumeWait_cases with ⟨_, e⟩ | ⟨k, _, _, _, e⟩ <;> rw [e]
    · exact ⟨rfl, .inr ⟨rfl, rfl⟩⟩
    · exact ⟨rfl, .inl ⟨rfl, rfl⟩⟩
  · refine ⟨exec_keepsAllBut hexec .booted (by cases i <;> simp [writtenParts]), ?_⟩
    rcases exec_wait_cases hexec with ⟨hout, hvalid⟩ | ⟨hout, hvalid, _⟩
    · exact .inl ⟨hout, hvalid.trans hw⟩
    · exact .inr ⟨hout, hvalid⟩

/-- Settles O8: the two reports of a completed step, each with its wait flag. -/
theorem stepOutcomeReported : Obligations.StepOutcomeReported := by
  intro s t h
  obtain ⟨hbooted, ⟨hout, hvalid⟩ | ⟨hout, hvalid⟩⟩ := step_reports h
  · exact ⟨hbooted, .inl hout, by simp [hout, hvalid]⟩
  · exact ⟨hbooted, .inr hout, by simp [hout, hvalid]⟩

/-! ## The invariant (10_state.md R28, R32) -/

theorem toNat_pc_add_two {w : Word} (h : w.toNat ≤ 0xFFE) : (w + 2).toNat = w.toNat + 2 :=
  BitVec.toNat_add_of_lt (y := 2) (by simp; omega)

theorem toNat_pc_add_four {w : Word} (h : w.toNat ≤ 0xFFE) : (w + 4).toNat = w.toNat + 4 :=
  BitVec.toNat_add_of_lt (y := 4) (by simp; omega)

/-- The invariant speaks of no field the host's turn writes. -/
theorem State.hostMoves_inv_iff (s : State) : s.hostMoves.Inv ↔ s.Inv := Iff.rfl

/-- The two clauses on the outcome port hold of every state a completed step leaves. -/
theorem inv_outcome_of_step {s t : State} (h : step s = .next t) :
    (t.waitValid = true ↔ t.outcome = some .awaitingKey) ∧ (t.booted = true ↔ t.outcome ≠ none) := by
  obtain ⟨hbooted, ⟨hout, hvalid⟩ | ⟨hout, hvalid⟩⟩ := step_reports h
  · simp [hbooted, hout, hvalid]
  · simp [hbooted, hout, hvalid]

/-- The range of a return address (40_control_transfer.md R111). -/
def ReturnAddressesInRange (s : State) : Prop :=
  ∀ k : Fin 16, k.val < s.sp.val → 0x202 ≤ (s.stack[k]).toNat ∧ (s.stack[k]).toNat ≤ 0x1000

theorem exec_keeps_returnAddressesInRange {i : Instr} {s t : State} (h : exec i s = .next t)
    (hlow : 0x200 ≤ s.pc.toNat) (hfetch : s.pc.toNat ≤ 0xFFE) (hstack : ReturnAddressesInRange s) :
    ReturnAddressesInRange t := by
  intro k hk
  rcases exec_stack_cases h k hk with ⟨hk', hold⟩ | hnew
  · exact hold ▸ hstack k hk'
  · rw [hnew, toNat_pc_add_two hfetch]
    omega

theorem exec_keeps_pc_range {i : Instr} {s t : State} (h : exec i s = .next t) (hlow : 0x200 ≤ s.pc.toNat)
    (hfetch : s.pc.toNat ≤ 0xFFE) (hstack : ReturnAddressesInRange s) : 0x200 ≤ t.pc.toNat ∧ t.pc.toNat ≤ 0x1002 := by
  have hnext := toNat_pc_add_two hfetch
  have hskip := toNat_pc_add_four hfetch
  rcases exec_pc_cases h with hpc | hpc | hpc | hpc | ⟨k, hk, hpc⟩
  · rw [hpc]; omega
  · rw [hpc]; omega
  · rw [hpc]; omega
  · omega
  · have := hstack k hk
    rw [hpc]; omega

/-- Only `LD Vx, K` enters the wait, and it leaves `pc` where the fetch succeeded (R172). -/
theorem exec_wait_fetchable {i : Instr} {s t : State} (h : exec i s = .next t) (hw : s.waitValid = false)
    (hfetch : s.pc.toNat ≤ 0xFFE) (hvalid : t.waitValid = true) : t.pc.toNat ≤ 0xFFE := by
  rcases exec_wait_cases h with ⟨_, hkept⟩ | ⟨_, _, hpc⟩
  · simp [hkept, hw] at hvalid
  · rwa [hpc]

/-- Settles O14: an executed instruction keeps each clause by its own lemma; a resumed wait stays at a fetchable `pc` or goes
one instruction on; the outcome port is what the step reports. -/
theorem invariantKept : Obligations.InvariantKept := by
  rintro s t ⟨hwf, ⟨hlow, hhigh⟩, hwait, hstack, _⟩ h
  have hout := inv_outcome_of_step h
  obtain ⟨u, rfl, ⟨hw, rfl⟩ | ⟨hw, hfetch, i, hexec⟩⟩ := step_eq_next_cases h
  · have hpc := hwait hw
    rcases s.beginStep.resumeWait_cases with ⟨_, e⟩ | ⟨_, _, _, _, e⟩ <;> rw [e] at hout ⊢
    · exact ⟨by simpa using hwf, by simpa using ⟨hlow, hhigh⟩, fun _ => by simpa using hpc, by simpa using hstack, hout⟩
    · refine ⟨by simpa using hwf, ?_, nofun, by simpa using hstack, hout⟩
      simp only [State.hostMoves_pc, State.setOutcome_pc, State.advance_pc, State.setWait_pc, State.setV_pc,
        State.beginStep_pc, toNat_pc_add_two hpc]
      omega
  · exact ⟨wf_mem_of_exec_next (s := s.beginStep) (t := u) hexec hwf,
      exec_keeps_pc_range (s := s.beginStep) (t := u) hexec hlow hfetch hstack,
      exec_wait_fetchable (s := s.beginStep) (t := u) hexec hw hfetch,
      exec_keeps_returnAddressesInRange (s := s.beginStep) (t := u) hexec hlow hfetch hstack, hout⟩

/-- Settles O13: every clause is about the values of the reset state. -/
theorem invariantAtReset : Obligations.InvariantAtReset :=
  ⟨Memory.wf_reset, by decide, nofun, nofun, by decide, by decide⟩

/-- A fault keeps the invariant: it reports a reason, and a waiting step cannot fault. -/
theorem inv_afterFault {s : State} {f : Fault} (hinv : s.Inv) (h : step s = .fault f) : (s.afterFault f).Inv := by
  obtain ⟨hwf, hpc, hwait, hstack, _⟩ := hinv
  obtain ⟨hnotwaiting, _⟩ := step_eq_fault_cases h
  exact ⟨hwf, hpc, hwait, hstack, by simp [hnotwaiting], by simp⟩

theorem inv_stepOn {s : State} (hinv : s.Inv) : s.stepOn.Inv := by
  cases h : step s with
  | next t => rw [State.stepOn, h]; exact invariantKept s t hinv h
  | fault f => rw [State.stepOn_of_fault h]; exact (State.hostMoves_inv_iff _).2 (inv_afterFault hinv h)
  | refused r => exact absurd h (step_ne_refused s r)

/-! ## Loading (R204) -/

/-- All a load can do. -/
theorem State.load_cases (s : State) (bytes : List Byte) :
    (s.booted = true ∧ s.load bytes = (s, .refused .loadAfterFirstStep)) ∨
    (s.booted = false ∧ 3584 < bytes.length ∧ s.load bytes = (s, .fault .romTooLarge)) ∨
    (s.booted = false ∧ bytes.length ≤ 3584 ∧
      s.load bytes = (s.setMem (Memory.putAll s.mem 0x200 bytes), .ok)) := by
  cases hb : s.booted with
  | true => exact .inl ⟨rfl, by simp [State.load, hb]⟩
  | false =>
    by_cases hlen : 3584 < bytes.length
    · exact .inr (.inl ⟨rfl, hlen, by simp [State.load, hb, hlen]⟩)
    · exact .inr (.inr ⟨rfl, Nat.le_of_not_lt hlen, by simp [State.load, hb, hlen]⟩)

theorem inv_load {s : State} (hinv : s.Inv) (bytes : List Byte) : (s.load bytes).1.Inv := by
  rcases s.load_cases bytes with ⟨_, e⟩ | ⟨_, _, e⟩ | ⟨_, hlen, e⟩ <;> rw [e]
  · exact hinv
  · exact hinv
  · obtain ⟨hwf, hrest⟩ := hinv
    exact ⟨Memory.wf_putAll s.mem _ bytes hwf (by omega), hrest⟩

/-- Settles O15: one lemma per transaction; the invariant speaks of no field a tick writes, and of none of the host's side. -/
theorem invariantKeptByTransactions : Obligations.InvariantKeptByTransactions := fun _ hinv =>
  ⟨inv_stepOn hinv, invariantAtReset, hinv, inv_load hinv⟩

/-- Settles O18: the image is one block write at 0x200. -/
theorem loadPlacesImage : Obligations.LoadPlacesImage := by
  intro s bytes
  rcases s.load_cases bytes with ⟨hb, e⟩ | ⟨hb, hlen, e⟩ | ⟨hb, hlen, e⟩ <;> rw [e]
  · exact ⟨fun hb' => (Bool.false_ne_true (hb'.symm.trans hb)).elim, fun _ => rfl⟩
  · exact ⟨fun _ hlen' => by omega, fun hb' => (Bool.false_ne_true (hb.symm.trans hb')).elim⟩
  · refine ⟨fun _ _ => ⟨rfl, s.setMem_keepsAllBut _, fun k hk => ?_, fun a ha => ?_⟩,
      fun hb' => (Bool.false_ne_true (hb.symm.trans hb')).elim⟩
    · rw [State.setMem_mem, Memory.get_putAll, if_pos (Nat.le_add_right _ _), Nat.add_sub_cancel_left,
        List.getElem?_eq_getElem hk, Option.getD_some]
    · exact Memory.get_putAll_outside _ _ _ _ ha

/-- No instruction raises RomTooLarge (60_exceptions.md R237, R239). -/
theorem faultTable_ne_romTooLarge (i : Instr) (s : State) : faultTable i s ≠ some .romTooLarge := by
  cases i with
  | call => simp only [faultTable]; split_ifs <;> simp
  | _ => simp [faultTable]

theorem step_ne_romTooLarge (s : State) : step s ≠ .fault .romTooLarge := by
  intro h
  obtain ⟨_, hfetch | ⟨_, _, _, _, hf⟩ | ⟨_, i, _, _, hfault⟩⟩ := step_eq_fault_cases h
  · rcases s.fetch_cases with ⟨_, e⟩ | ⟨_, e⟩ <;> rw [e] at hfetch <;> cases hfetch
  · cases hf
  · exact faultTable_ne_romTooLarge i _ hfault

/-- Settles O19: of the three cases of `load` one faults; no fetch, decode or instruction does so for this reason. -/
theorem romTooLargeOnlyByLoad : Obligations.RomTooLargeOnlyByLoad := by
  refine ⟨fun s bytes hb hlen => ?_, fun s bytes f h => ?_, step_ne_romTooLarge⟩
  · rcases s.load_cases bytes with ⟨hb', _⟩ | ⟨_, _, e⟩ | ⟨_, hlen', _⟩
    · exact (Bool.false_ne_true (hb.symm.trans hb')).elim
    · exact e
    · omega
  · rcases s.load_cases bytes with ⟨_, e⟩ | ⟨_, hlen, e⟩ | ⟨_, _, e⟩ <;> rw [e] at h ⊢ <;> cases h
    exact ⟨rfl, hlen, rfl⟩

/-! ## The state after reset (70_reset_and_hazards.md R260, R262) -/

/-- Past the font an unlisted byte is zero (10_state.md R36). -/
theorem Memory.unlisted_of_font_le {a : Nat} (h : 0x050 ≤ a) : Memory.unlisted a = 0x00 :=
  if_neg fun hin => Nat.not_lt.2 h (by simpa using hin.2)

theorem State.restart_keepsAllBut (s : State) : KeepsAllBut [.host] State.reset s.restart := by
  intro p hp
  cases p with
  | host => exact absurd List.mem_cons_self hp
  | _ => simp [SamePart, State.isSet]

/-- Settles O12: memory after reset lists nothing, so each byte reads as unlisted; the rest is the reset state, field by
field. -/
theorem resetValues : Obligations.ResetValues :=
  ⟨fun r => Vector.getElem_replicate r.isLt, rfl, rfl, rfl, fun k => Vector.getElem_replicate k.isLt, rfl, rfl,
    fun x y => pixel_blankFb (x, y), by decide, fun _ h => Memory.unlisted_of_font_le h, rfl, rfl, rfl, rfl, rfl, rfl,
    State.restart_keepsAllBut⟩

end Sys2Proof.Machine
end

section
/-! PROOFS. Calls and returns (spec 40_control_transfer.md R111, R113, R114), and the round trip of nested calls. -/

namespace Sys2Proof.Machine

/-! ## One call, one return, one checked jump -/

theorem exec_call_next {nnn : Addr12} {s : State} (hlow : 0x200 ≤ nnn.toNat) (hsp : s.sp.val < 16) :
    exec (.call nnn) s = .next (after (.call nnn) s) := by
  refine exec_of_faultTable_eq_none ?_
  simp only [faultTable, if_neg (Nat.not_lt.2 hlow), if_neg (Nat.ne_of_lt hsp)]

theorem exec_ret_next {s : State} (hsp : 1 ≤ s.sp.val) : exec .ret s = .next (after .ret s) := by
  refine exec_of_faultTable_eq_none ?_
  simp only [faultTable, if_neg (Nat.ne_of_gt hsp)]

theorem after_call_sp {nnn : Addr12} {s : State} (hsp : s.sp.val < 16) :
    (after (.call nnn) s).sp.val = s.sp.val + 1 := by
  rw [after_call hsp, State.setStack_sp]

/-- The pushed entry is the address after the call; every other entry stays (10_state.md R29). -/
theorem getElem_after_call_stack {nnn : Addr12} {s : State} (hsp : s.sp.val < 16) (k : Fin 16) :
    (after (.call nnn) s).stack[k] = if k.val = s.sp.val then s.pc + 2 else s.stack[k] := by
  rw [after_call hsp, State.setStack_stack, Fin.getElem_fin, Vector.getElem_set]
  exact if_congr eq_comm rfl rfl

theorem after_ret_sp {s : State} (hsp : 1 ≤ s.sp.val) : (after .ret s).sp.val + 1 = s.sp.val := by
  rw [after_ret hsp, State.setPc_sp, State.setStack_sp, Nat.sub_add_cancel hsp]

theorem after_ret_stack {s : State} (hsp : 1 ≤ s.sp.val) : (after .ret s).stack = s.stack := by
  rw [after_ret hsp, State.setPc_stack, State.setStack_stack]

theorem after_ret_pc {s : State} (k : Fin 16) (hk : k.val + 1 = s.sp.val) : (after .ret s).pc = s.stack[k] := by
  have hsp : 1 ≤ s.sp.val := hk ▸ Nat.le_add_left 1 k.val
  have htop : s.sp.val - 1 = k.val := by omega
  simp only [after_ret hsp, State.setPc_pc, htop, Fin.getElem_fin]

/-- Settles O23: the three cases of `CALL`, each ruled by the target first and the stack's depth second. -/
theorem callPushesReturnAddress : Obligations.CallPushesReturnAddress := by
  intro nnn s
  refine ⟨fun hlow hsp => ⟨_, exec_call_next hlow hsp, ?_, after_call_sp hsp, getElem_after_call_stack hsp, ?_⟩,
    fun hlow => ?_, fun hlow hsp => ?_⟩
  · rw [after_call hsp, State.setStack_pc, State.setPc_pc, toNat_ofNat_addr12]
  · exact after_keepsAllBut (.call nnn) s
  · exact exec_eq_fault_iff.2 (if_pos hlow)
  · exact exec_eq_fault_iff.2 ((if_neg (Nat.not_lt.2 hlow)).trans (if_pos hsp))

/-- Settles O24: `RET` reads the entry below `sp` and writes none. -/
theorem returnPopsNewestEntry : Obligations.ReturnPopsNewestEntry := fun s hsp =>
  ⟨_, exec_ret_next hsp, after_ret_sp hsp, after_ret_pc, fun _ => by rw [after_ret_stack hsp],
    (after_keepsAllBut .ret s).mono (by decide)⟩

/-- Settles O25: an empty stack is the row of `RET` in the table of faults, and `afterFault` keeps `pc` and `sp`. -/
theorem returnOnEmptyStackFaults : Obligations.ReturnOnEmptyStackFaults := fun s hsp =>
  ⟨exec_eq_fault_iff.2 (if_pos hsp), fun f => ⟨s.afterFault_pc f, s.afterFault_sp f⟩⟩

/-- Settles O26: of the two cases of `JP V0`, the range of the untruncated sum leaves one. -/
theorem jumpOffsetChecksSum : Obligations.JumpOffsetChecksSum := by
  intro nnn s
  rcases exec_jpV0_cases nnn s with ⟨hout, hexec⟩ | ⟨hlow, hhigh, hexec⟩ <;> unfold offsetTarget at *
  · exact ⟨fun _ _ => by omega, fun _ => hexec⟩
  · refine ⟨fun _ _ => ⟨_, hexec, ?_, s.setPc_keepsAllBut _⟩, fun _ => by omega⟩
    rw [State.setPc_pc, BitVec.toNat_ofNat, Nat.mod_eq_of_lt (by omega)]

/-! ## Nested calls (95_test_vectors.md S4) -/

/-- Running one list of instructions after another that completes. -/
theorem execAll_append {is js : List Instr} {s t : State} (h : execAll is s = .next t) :
    execAll (is ++ js) s = execAll js t := by
  induction is generalizing s with
  | nil => cases h; rfl
  | cons i rest ih =>
    rw [List.cons_append]
    cases hexec : exec i s with
    | next u =>
      simp only [execAll, hexec] at h ⊢
      exact ih h
    | fault r => simp [execAll, hexec] at h
    | refused r => simp [execAll, hexec] at h

theorem execAll_cons {i : Instr} {is : List Instr} {s t : State} (h : exec i s = .next t) :
    execAll (i :: is) s = execAll is t := by
  simp only [execAll, h]

/-- The nested calls of a list and as many returns: the first call, the nested calls of the rest with their returns, and
the return of the first call. -/
theorem nestedCalls_cons (n : Addr12) (rest : List Addr12) :
    (n :: rest).map Instr.call ++ List.replicate (n :: rest).length Instr.ret =
      Instr.call n :: ((rest.map Instr.call ++ List.replicate rest.length Instr.ret) ++ [Instr.ret]) := by
  simp [List.replicate_succ']

/-- Nested calls that fit come back with the valid entries as they were, and after the first call if there is one. -/
theorem execAll_nestedCalls (targets : List Addr12) (s : State) (hlegal : ∀ n ∈ targets, 0x200 ≤ n.toNat)
    (hfits : s.sp.val + targets.length ≤ 16) :
    ∃ t, execAll (targets.map Instr.call ++ List.replicate targets.length Instr.ret) s = .next t ∧
      (targets ≠ [] → t.pc = s.pc + 2) ∧ t.sp = s.sp ∧
      (∀ k : Fin 16, k.val < s.sp.val → t.stack[k] = s.stack[k]) ∧ KeepsAllBut [.pc, .stack] s t := by
  induction targets generalizing s with
  | nil => exact ⟨s, rfl, fun h => absurd rfl h, rfl, fun _ _ => rfl, KeepsAllBut.refl _ s⟩
  | cons n rest ih =>
    rw [List.length_cons] at hfits
    have hsp : s.sp.val < 16 := by omega
    have hcall := exec_call_next (hlegal n List.mem_cons_self) hsp
    have hdeep := after_call_sp (nnn := n) hsp
    obtain ⟨u, hrun, _, husp, hustack, hkeeps⟩ := ih (after (.call n) s)
      (fun m hm => hlegal m (List.mem_cons_of_mem n hm)) (by omega)
    have hdepth : u.sp.val = s.sp.val + 1 := husp ▸ hdeep
    have hret := exec_ret_next (s := u) (by omega)
    refine ⟨after .ret u, ?_, fun _ => ?_, ?_, fun k hk => ?_, ?_⟩
    · rw [nestedCalls_cons, execAll_cons hcall, execAll_append hrun, execAll_cons hret, execAll]
    · rw [after_ret_pc ⟨s.sp.val, hsp⟩ hdepth.symm, hustack _ (by simp [hdeep]), getElem_after_call_stack hsp, if_pos rfl]
    · have := after_ret_sp (s := u) (by omega)
      exact Fin.ext (by omega)
    · rw [after_ret_stack (by omega), hustack k (by omega), getElem_after_call_stack hsp, if_neg (by omega)]
    · exact (((after_keepsAllBut (.call n) s).trans hkeeps).trans (after_keepsAllBut .ret u)).mono (by simp [writtenParts])

/-- Settles O27: by induction on the calls, the inner ones with their returns leaving the outer return address on top. -/
theorem callsThenReturnsRoundTrip : Obligations.CallsThenReturnsRoundTrip := by
  intro s targets hne hlegal hfits
  obtain ⟨t, hrun, hpc, hsp, hstack, hkeeps⟩ := execAll_nestedCalls targets s hlegal hfits
  exact ⟨t, hrun, hpc hne, hsp, hstack, hkeeps⟩

end Sys2Proof.Machine
end

section
/-! PROOFS. The keypad, the shifts, the assignments and the index register (spec 43_alu.md, 45_keypad.md,
46_timer_index_memory.md R182 to R184). -/

namespace Sys2Proof.Machine

/-! ## Key skips (45_keypad.md R170, R171) -/

theorem keyPressed_of_le {keys : BitVec 16} {k : Byte} (hk : k.toNat ≤ 15) :
    keyPressed keys k = keys.getLsbD k.toNat := by
  rw [keyPressed, decide_eq_true hk, Bool.true_and]

theorem keyPressed_of_gt {keys : BitVec 16} {k : Byte} (hk : 15 < k.toNat) : keyPressed keys k = false := by
  rw [keyPressed, decide_eq_false (Nat.not_le.2 hk), Bool.false_and]

theorem exec_skp (x : Reg) (s : State) : exec (.skp x) s = .next (s.skipIf (keyPressed s.keys s.v[x])) := rfl

theorem exec_sknp (x : Reg) (s : State) : exec (.sknp x) s = .next (s.skipIf (!keyPressed s.keys s.v[x])) := rfl

theorem State.skipIf_true_pc (s : State) : (s.skipIf true).pc = s.pc + 4 := rfl

theorem State.skipIf_false_pc (s : State) : (s.skipIf false).pc = s.pc + 2 := rfl

/-- Settles O29: both skips branch on `keyPressed`, which an index above 15 makes false. -/
theorem keySkipsTestOneKey : Obligations.KeySkipsTestOneKey := by
  intro x s
  refine ⟨⟨_, exec_skp x s, s.skipIf_keepsAllBut _, fun hk hset => ?_, fun hk hclear => ?_, fun hk => ?_⟩,
    ⟨_, exec_sknp x s, s.skipIf_keepsAllBut _, fun hk hset => ?_, fun hk hclear => ?_, fun hk => ?_⟩⟩
  · rw [keyPressed_of_le hk, hset, State.skipIf_true_pc]
  · rw [keyPressed_of_le hk, hclear, State.skipIf_false_pc]
  · rw [keyPressed_of_gt hk, State.skipIf_false_pc]
  · rw [keyPressed_of_le hk, hset, Bool.not_true, State.skipIf_false_pc]
  · rw [keyPressed_of_le hk, hclear, Bool.not_false, State.skipIf_true_pc]
  · rw [keyPressed_of_gt hk, Bool.not_false, State.skipIf_true_pc]

/-! ## The key wait (45_keypad.md R172, R173) -/

/-- Settles O47: the one next state is `after`, which enters the wait and writes nothing else. -/
theorem keyWaitEntered : Obligations.KeyWaitEntered := fun x s =>
  ⟨_, rfl, rfl, rfl, rfl, rfl, after_keepsAllBut (.ldVxK x) s⟩

theorem step_of_waiting {s : State} (hwait : s.waitValid = true) : step s = .next s.beginStep.resumeWait.hostMoves := by
  rw [step, if_pos hwait, endStep_next]

theorem getLsbD_newlyPressed_iff (keys prev : BitVec 16) (k : Fin 16) :
    (newlyPressed keys prev).getLsbD k = true ↔ keys.getLsbD k = true ∧ prev.getLsbD k = false := by
  simp [newlyPressed]

/-- No key newly down: the wait goes on (R173). -/
theorem State.resumeWait_of_no_key {s : State}
    (h : ∀ k : Fin 16, s.keys.getLsbD k = true → s.keyPrev.getLsbD k = true) :
    s.resumeWait = (s.setWait true s.waitX s.keys).setOutcome .awaitingKey := by
  rcases s.resumeWait_cases with ⟨_, e⟩ | ⟨k, hk, hnew, _, _⟩
  · exact e
  · obtain ⟨hdown, hup⟩ := (getLsbD_newlyPressed_iff _ _ ⟨k, hk⟩).1 hnew
    exact absurd (hup.symm.trans (h ⟨k, hk⟩ hdown)) Bool.false_ne_true

/-- The lowest key newly down ends the wait (R173). -/
theorem State.resumeWait_of_key {s : State} (k : Fin 16) (hdown : s.keys.getLsbD k = true)
    (hup : s.keyPrev.getLsbD k = false)
    (hlowest : ∀ j : Fin 16, j < k → s.keys.getLsbD j = true → s.keyPrev.getLsbD j = true) :
    s.resumeWait =
      (((s.setV s.waitX (BitVec.ofNat 8 k)).setWait false s.waitX s.keyPrev).advance).setOutcome .continued := by
  have hk := (getLsbD_newlyPressed_iff s.keys s.keyPrev k).2 ⟨hdown, hup⟩
  rcases s.resumeWait_cases with ⟨hzero, _⟩ | ⟨j, hj, hnew, hmin, e⟩
  · rw [hzero] at hk
    exact absurd hk (by simp)
  · have hjk : j = k := by
      rcases Nat.lt_trichotomy j k with hlt | heq | hgt
      · obtain ⟨hdown', hup'⟩ := (getLsbD_newlyPressed_iff _ _ ⟨j, hj⟩).1 hnew
        exact absurd (hup'.symm.trans (hlowest ⟨j, hj⟩ hlt hdown')) Bool.false_ne_true
      · exact heq
      · exact absurd ((hmin k hgt).symm.trans hk) Bool.false_ne_true
    rw [e, hjk]

theorem State.beginStep_keepsAllBut (s : State) : KeepsAllBut [.booted, .outcome] s s.beginStep := by
  intro p hp
  cases p with
  | booted | outcome => exact absurd (by decide) hp
  | _ => simp [SamePart, State.isSet]

/-- After a change that spares the timers and the host's side, the host's turn leaves the timers of `s` after as many ticks. -/
theorem State.hostMoves_timers_of_keepsAllBut {l : List Part} {s u : State} (h : KeepsAllBut l s u)
    (hl : .dt ∉ l ∧ .st ∉ l ∧ .host ∉ l) :
    u.hostMoves.dt = (State.tick^[s.hostTurn.ticks] s).dt ∧ u.hostMoves.st = (State.tick^[s.hostTurn.ticks] s).st := by
  obtain ⟨hdt, hst, hhost⟩ := hl
  obtain ⟨hscript, hturn⟩ := h .host hhost
  have hsame : u.hostTurn = s.hostTurn := by rw [State.hostTurn, State.hostTurn, hscript, hturn]
  rw [State.hostMoves_dt, State.hostMoves_st, State.iterate_tick_dt, State.iterate_tick_st, hsame]
  exact ⟨congrArg _ (h .dt hdt), congrArg _ (h .st hst)⟩

/-- Settles O48: the step is the resumed wait between `beginStep` and the host's turn, whose frames compose. -/
theorem keyWaitStep : Obligations.KeyWaitStep := by
  intro s hwait
  have hstep := step_of_waiting hwait
  refine ⟨fun hnone => ?_, fun k hdown hup hlowest => ?_⟩
  · rw [State.resumeWait_of_no_key (s := s.beginStep) hnone] at hstep
    have hframe := s.beginStep_keepsAllBut.trans
      ((State.setWait_keepsAllBut _ true s.waitX s.beginStep.keys).trans (State.setOutcome_keepsAllBut _ .awaitingKey))
    obtain ⟨hdt, hst⟩ := State.hostMoves_timers_of_keepsAllBut hframe (by decide)
    exact ⟨_, hstep, by simp, by simp, by simp; rfl, by simp, by simp, hdt, hst,
      (hframe.trans (State.hostMoves_keepsAllBut _)).mono (by decide)⟩
  · rw [State.resumeWait_of_key (s := s.beginStep) k hdown hup hlowest] at hstep
    have hframe := s.beginStep_keepsAllBut.trans
      (((State.setV_keepsAllBut _ s.waitX (BitVec.ofNat 8 k)).trans (State.setWait_keepsAllBut _ false s.waitX s.keyPrev)).trans
        ((State.advance_keepsAllBut _).trans (State.setOutcome_keepsAllBut _ .continued)))
    obtain ⟨hdt, hst⟩ := State.hostMoves_timers_of_keepsAllBut hframe (by decide)
    refine ⟨_, hstep, ?_, s.setV_keepsRegsBut s.waitX _, by simp, by simp, by simp, by simp, hdt, hst,
      (hframe.trans (State.hostMoves_keepsAllBut _)).mono (by decide)⟩
    have hkey : ((s.setV s.waitX (BitVec.ofNat 8 k)).v[s.waitX]).toNat = k.val := by
      rw [State.getElem_setV_self, BitVec.toNat_ofNat, Nat.mod_eq_of_lt (by omega)]
    exact hkey

/-! ## Assignment and logic (43_alu.md R141 to R144) -/

/-- An instruction whose one next state is a register write, advanced: the register holds the byte, and nothing but it and
`pc` changes. -/
theorem exec_register_write {i : Instr} {x : Reg} {s : State} {b : Byte} {P : Byte → Prop}
    (hexec : exec i s = .next (s.setV x b).advance) (hb : P b) :
    ∃ t, exec i s = .next t ∧ P t.v[x] ∧ KeepsRegsBut [x] s t ∧ t.pc = s.pc + 2 ∧ KeepsAllBut [.regs, .pc] s t :=
  ⟨_, hexec, (s.getElem_setV_self x b).symm ▸ hb, s.setV_keepsRegsBut x b, State.advance_pc _,
    s.setV_advance_keepsAllBut x b⟩

/-- Settles O34: each writes one register, with a byte whose bits are those of its operation. -/
theorem assignAndLogicLeaveFlag : Obligations.AssignAndLogicLeaveFlag := fun x y s =>
  ⟨exec_register_write (i := .ldReg x y) (P := (· = s.v[y])) rfl rfl,
    exec_register_write (i := .orReg x y)
      (P := fun b => ∀ k, b.getLsbD k = ((s.v[x]).getLsbD k || (s.v[y]).getLsbD k)) rfl fun _ => BitVec.getLsbD_or,
    exec_register_write (i := .andReg x y)
      (P := fun b => ∀ k, b.getLsbD k = ((s.v[x]).getLsbD k && (s.v[y]).getLsbD k)) rfl fun _ => BitVec.getLsbD_and,
    exec_register_write (i := .xorReg x y)
      (P := fun b => ∀ k, b.getLsbD k = xor ((s.v[x]).getLsbD k) ((s.v[y]).getLsbD k)) rfl fun _ => BitVec.getLsbD_xor⟩

/-! ## Shifts (R147, R149) -/

theorem toNat_flagByte_getLsbD (b : Byte) (k : Nat) : (flagByte (b.getLsbD k)).toNat = b.toNat / 2 ^ k % 2 := by
  rw [toNat_flagByte_of_iff Iff.rfl, BitVec.getLsbD, Nat.testBit_eq_decide_div_mod_eq]
  simp only [decide_eq_true_eq]
  split <;> omega

/-- An instruction whose one next state is a result with a bit of a byte as its flag. -/
theorem exec_result_bit {i : Instr} {x : Reg} {s : State} {b a : Byte} {k n : Nat}
    (hexec : exec i s = .next (s.setResultThenFlag x b (a.getLsbD k)).advance) (hresult : b.toNat = n) :
    ∃ t, exec i s = .next t ∧ (t.v[VF]).toNat = a.toNat / 2 ^ k % 2 ∧ (x ≠ VF → (t.v[x]).toNat = n) ∧
      KeepsRegsBut [x, VF] s t ∧ t.pc = s.pc + 2 ∧ KeepsAllBut [.regs, .pc] s t := by
  obtain ⟨t, ht, hVF, hrest⟩ := exec_result_flag hexec Iff.rfl hresult
  refine ⟨t, ht, ?_, hrest⟩
  rw [hVF, ← toNat_flagByte_getLsbD, toNat_flagByte_of_iff Iff.rfl]

/-- Settles O37: the bit put out is bit 0 or bit 7, and the result is half or twice the register. -/
theorem shiftsByOneInPlace : Obligations.ShiftsByOneInPlace := by
  intro x y s
  have hright : (s.v[x] >>> 1).toNat = (s.v[x]).toNat / 2 := by rw [BitVec.toNat_ushiftRight, Nat.shiftRight_one]
  have hleft : (s.v[x] <<< 1).toNat = 2 * (s.v[x]).toNat % 256 := by
    rw [BitVec.toNat_shiftLeft, Nat.shiftLeft_eq, Nat.pow_one, Nat.mul_comm]
  have hbit0 : (s.v[x]).toNat / 2 ^ 0 % 2 = (s.v[x]).toNat % 2 := by rw [Nat.pow_zero, Nat.div_one]
  have hbit7 : (s.v[x]).toNat / 2 ^ 7 % 2 = (s.v[x]).toNat / 128 := by have := (s.v[x]).isLt; omega
  exact ⟨hbit0 ▸ exec_result_bit (i := .shr x y) (a := s.v[x]) rfl hright,
    hbit7 ▸ exec_result_bit (i := .shl x y) (a := s.v[x]) rfl hleft⟩

/-! ## The index register (46_timer_index_memory.md R183, R184) -/

/-- Settles O51: both operands are below 65536, so the sum of the two words is the sum of the numbers reduced once. -/
theorem addToIndexWraps : Obligations.AddToIndexWraps := by
  intro x s
  refine ⟨_, rfl, ?_, State.advance_pc _, s.setI_advance_keepsAllBut _⟩
  rw [State.advance_i, State.setI_i, BitVec.toNat_add, BitVec.toNat_setWidth_of_le (by decide)]

theorem toNat_glyphAddress (v : Byte) : (glyphAddress v).toNat = 5 * (v.toNat % 16) := by
  rw [glyphAddress, BitVec.toNat_ofNat, BitVec.extractLsb'_toNat, Nat.shiftRight_zero, Config.fontBase,
    Config.glyphBytes]
  omega

/-- Settles O52: the one next state is the write of the glyph's address, advanced. -/
theorem glyphAddressOfLowNibble : Obligations.GlyphAddressOfLowNibble := fun x s =>
  ⟨_, rfl, toNat_glyphAddress s.v[x], State.advance_pc _, s.setI_advance_keepsAllBut _⟩

/-! ## The sound timer (R182) -/

theorem State.soundOn_eq_decide (s : State) : s.soundOn = decide (0 < s.st.toNat) := by
  rw [State.soundOn, Bool.eq_iff_iff, bne_iff_ne, decide_eq_true_iff, Nat.pos_iff_ne_zero]
  exact not_congr BitVec.toNat_inj.symm

/-- Settles O50: `n` ticks leave the timer at its value less `n`, and the output is on while that is above 0. -/
theorem soundLastsAsManyTicks : Obligations.SoundLastsAsManyTicks := by
  intro x s
  refine ⟨_, rfl, rfl, State.advance_pc _, s.setST_advance_keepsAllBut _, fun n => ?_⟩
  rw [State.soundOn_eq_decide, State.iterate_tick_st, countDown_toNat, decide_eq_decide]
  exact Nat.sub_pos_iff_lt

end Sys2Proof.Machine
end

section
/-! PROOFS. Memory and the blocks of FX33, FX55 and FX65 (spec 20_memory.md, 46_timer_index_memory.md R185 to R187): the
canonical form is determined by what it reads as, and each block instruction is one block access at `I`. -/

namespace Sys2Proof.Machine

/-! ## Extensionality of the canonical form (20_memory.md section 1) -/

theorem Memory.get_of_mem {m : Memory} (hm : m.Pairwise fun c d => c.1 < d.1) {c : Host.Cell} (hc : c ∈ m) :
    Memory.get m c.1 = c.2 := by
  induction m with
  | nil => cases hc
  | cons d rest ih =>
    obtain ⟨hd, hrest⟩ := List.pairwise_cons.1 hm
    rw [Memory.get]
    rcases List.mem_cons.1 hc with rfl | hc
    · rw [if_pos rfl]
    · rw [if_neg (Nat.ne_of_lt (hd c hc)), ih hrest hc]

theorem Memory.mem_of_get_ne_unlisted {m : Memory} {a : Nat} (h : Memory.get m a ≠ Memory.unlisted a) :
    (a, Memory.get m a) ∈ m := by
  induction m with
  | nil => exact absurd rfl h
  | cons c rest ih =>
    rw [Memory.get] at h ⊢
    split
    next hc => exact hc ▸ List.mem_cons_self
    next hc => exact List.mem_cons_of_mem _ (ih (by rwa [if_neg hc] at h))

/-- A canonical memory lists the bytes that differ from the reset contents, as they read. -/
theorem Memory.mem_iff_get {m : Memory} (hm : Memory.wf m = true) (c : Host.Cell) :
    c ∈ m ↔ Memory.get m c.1 = c.2 ∧ Memory.get m c.1 ≠ Memory.unlisted c.1 := by
  obtain ⟨hsorted, hlisted⟩ := (Memory.wf_iff m).1 hm
  constructor
  · intro hc
    have hget := Memory.get_of_mem hsorted hc
    exact ⟨hget, hget ▸ (hlisted c hc).2⟩
  · rintro ⟨hget, hne⟩
    have hmem := Memory.mem_of_get_ne_unlisted hne
    rwa [hget] at hmem

/-- Settles O20: two canonical memories that read alike list the same cells, and a strictly rising list is determined by
its members. -/
theorem equalMemoriesAreEqualData : Obligations.EqualMemoriesAreEqualData := by
  intro m m' hm hm' hget
  have hirrefl : Std.Irrefl fun c d : Host.Cell => c.1 < d.1 := ⟨fun c => Nat.lt_irrefl c.1⟩
  have hantisymm : Std.Antisymm fun c d : Host.Cell => c.1 < d.1 := ⟨fun _ _ h h' => absurd h' (Nat.lt_asymm h)⟩
  refine List.Pairwise.eq_of_mem_iff ((Memory.wf_iff m).1 hm).1 ((Memory.wf_iff m').1 hm').1 fun c => ?_
  rw [Memory.mem_iff_get hm, Memory.mem_iff_get hm', hget]

/-! ## The bytes stored (R185, R186) -/

/-- The byte of `V[r]` in the block stored by `LD [I], Vx`. -/
theorem byteAfterStore_ldMemVx {x r : Reg} (s : State) (hr : r ≤ x) :
    byteAfterStore (.ldMemVx x) s (s.i.toNat + r.val) = s.v[r] := by
  have hin : s.i.toNat ≤ s.i.toNat + r.val ∧ s.i.toNat + r.val ≤ s.i.toNat + x.val :=
    ⟨Nat.le_add_right _ _, Nat.add_le_add_left hr _⟩
  simp only [byteAfterStore, dif_pos hin, Nat.add_sub_cancel_left, Fin.getElem_fin]

/-- Settles O54: the block is `V[0]` to `V[X]` in order. -/
theorem storesRegisterBlock : Obligations.StoresRegisterBlock := by
  intro x s
  rcases exec_ldMemVx_cases x s with ⟨hout, hexec⟩ | ⟨hin, hexec⟩
  · exact ⟨fun h => by omega, fun _ => hexec⟩
  · exact ⟨fun _ => ⟨_, hexec, fun r hr => (get_mem_of_exec_next hexec _).trans (byteAfterStore_ldMemVx s hr),
      onlyStoresChangeMemory (.ldMemVx x) s _ hexec, State.advance_pc _, s.setMem_advance_keepsAllBut _⟩,
      fun h => by omega⟩

/-- The three digits of a byte make it up again, and the last two are digits. -/
theorem decimalDigits_toNat (v : Byte) :
    (BitVec.ofNat 8 (v.toNat / 100)).toNat = v.toNat / 100 ∧
    (BitVec.ofNat 8 (v.toNat / 10 % 10)).toNat = v.toNat / 10 % 10 ∧
    (BitVec.ofNat 8 (v.toNat % 10)).toNat = v.toNat % 10 := by
  have := v.isLt
  simp only [BitVec.toNat_ofNat]
  omega

/-- Settles O53: the block is the hundreds, the tens and the ones. -/
theorem storesDecimalDigits : Obligations.StoresDecimalDigits := by
  intro x s
  rcases exec_ldBVx_cases x s with ⟨hout, hexec⟩ | ⟨hin, hexec⟩
  · exact ⟨fun h => by omega, fun _ => hexec⟩
  · refine ⟨fun _ => ⟨_, hexec, ?_⟩, fun h => by omega⟩
    obtain ⟨hhundreds, htens, hones⟩ := decimalDigits_toNat s.v[x]
    have h0 : byteAfterStore (.ldBVx x) s s.i.toNat = BitVec.ofNat 8 ((s.v[x]).toNat / 100) := by simp [byteAfterStore]
    have h1 : byteAfterStore (.ldBVx x) s (s.i.toNat + 1) = BitVec.ofNat 8 ((s.v[x]).toNat / 10 % 10) := by
      simp [byteAfterStore]
    have h2 : byteAfterStore (.ldBVx x) s (s.i.toNat + 2) = BitVec.ofNat 8 ((s.v[x]).toNat % 10) := by
      simp [byteAfterStore]
    rw [get_mem_of_exec_next hexec, get_mem_of_exec_next hexec, get_mem_of_exec_next hexec, h0, h1, h2, hhundreds, htens,
      hones]
    exact ⟨by omega, by omega, by omega, onlyStoresChangeMemory (.ldBVx x) s _ hexec, State.advance_pc _,
      s.setMem_advance_keepsAllBut _⟩

/-! ## The registers loaded (R187) -/

theorem exec_ldVxMem_next {x : Reg} {s : State} (h : s.i.toNat + x.val ≤ 0xFFF) :
    exec (.ldVxMem x) s = .next (after (.ldVxMem x) s) :=
  exec_of_faultTable_eq_none (if_neg (Nat.not_lt.2 h))

/-- Settles O55: the registers up to `V[X]` take the block's bytes. -/
theorem loadsRegisterBlock : Obligations.LoadsRegisterBlock := by
  intro x s
  refine ⟨fun hin => ⟨_, exec_ldVxMem_next hin, fun r hr => ?_, fun r hr => ?_, ?_, after_keepsAllBut (.ldVxMem x) s⟩,
    fun hout => exec_eq_fault_iff.2 (if_pos hout)⟩
  · rw [getElem_after_ldVxMem, if_pos hr]
  · rw [getElem_after_ldVxMem, if_neg (not_le_of_gt hr)]
  · rw [after, State.advance_pc, State.setRegs_pc]

/-- Settles O56: the load reads, at the same addresses, the bytes the store has left. -/
theorem storeThenLoadRestores : Obligations.StoreThenLoadRestores := by
  intro x s t u hstore hindex hmem
  rcases exec_ldMemVx_cases x s with ⟨_, e⟩ | ⟨hin, _⟩
  · rw [e] at hstore; cases hstore
  · have hi : u.i = s.i := Eq.trans hindex (exec_keepsAllBut hstore .index (by simp [writtenParts]))
    refine ⟨_, exec_ldVxMem_next (by rw [hi]; omega), fun r hr => ?_, fun r hr => ?_⟩
    · rw [getElem_after_ldVxMem, if_pos hr, hmem, hi, get_mem_of_exec_next hstore, byteAfterStore_ldMemVx s hr]
    · rw [getElem_after_ldVxMem, if_neg (not_le_of_gt hr)]

end Sys2Proof.Machine
end

section
/-! PROOFS. Drawing (spec 44_display.md R161): the pixels of `spritePixels` are those `SpriteHits` names, and what drawing a
list of distinct pixels does is what the statements say of a draw. -/

namespace Sys2Proof.Machine

/-- The pixels the sprite of `DRW Vx, Vy, n` falls on. -/
def hitPixels (s : State) (x y : Reg) (n : Rows) : List (Fin 64 × Fin 32) :=
  spritePixels (spriteColumn s.v[x]) (spriteRow s.v[y]) 0 (spriteBytes s n)

theorem getElem?_spriteBytes (s : State) (n : Rows) (r : Nat) (b : Byte) :
    (spriteBytes s n)[r]? = some b ↔ r < n.val ∧ Memory.get s.mem (s.i.toNat + r) = b := by
  rw [spriteBytes, List.getElem?_map, Option.map_eq_some_iff]
  simp only [List.getElem?_eq_some_iff, List.length_range, List.getElem_range]
  constructor
  · rintro ⟨_, ⟨hr, rfl⟩, hb⟩
    exact ⟨hr, hb⟩
  · rintro ⟨hr, hb⟩
    exact ⟨r, ⟨hr, rfl⟩, hb⟩

theorem flagByte_eq_one_iff (b : Bool) : flagByte b = 0x01 ↔ b = true := by cases b <;> decide

theorem mem_hitPixels_iff (s : State) (x y : Reg) (n : Rows) (px : Fin 64) (py : Fin 32) :
    (px, py) ∈ hitPixels s x y n ↔ SpriteHits s x y n px py := by
  simp only [hitPixels, mem_spritePixels, getElem?_spriteBytes, pixelAt, Prod.mk.injEq, Fin.ext_iff, Nat.zero_add]
  constructor
  · rintro ⟨r, c, b, ⟨hr, rfl⟩, hc, hbit, hx, hy⟩
    exact ⟨r, c, hr, hc, hbit, hx, hy⟩
  · rintro ⟨r, c, hr, hc, hbit, hx, hy⟩
    exact ⟨r, c, _, ⟨hr, rfl⟩, hc, hbit, hx, hy⟩

/-- The next state of a draw that completes. -/
theorem exec_drw_next {x y : Reg} {n : Rows} {s t : State} (h : exec (.drw x y n) s = .next t) :
    (∀ px py, (SpriteHits s x y n px py → t.isSet px py = !s.isSet px py) ∧
      (¬SpriteHits s x y n px py → t.isSet px py = s.isSet px py)) ∧
    (t.v[VF] = 0x01 ↔ ∃ px py, SpriteHits s x y n px py ∧ s.isSet px py = true) := by
  have hlen : (spriteBytes s n).length ≤ 32 := by
    rw [spriteBytes, List.length_map, List.length_range]; omega
  obtain ⟨hpixel, hcollision⟩ := drawRows_spec (spriteColumn s.v[x]) (spriteRow s.v[y]) (spriteBytes s n) s.fb hlen
  have hset : ∀ px py, t.isSet px py = (s.isSet px py ^^ decide ((px, py) ∈ hitPixels s x y n)) := fun px py => by
    rw [eq_after_of_exec_next h]
    exact hpixel (px, py)
  have hVF : t.v[VF] = flagByte (drawn s x y n).collision := by
    rw [eq_after_of_exec_next h, after, State.advance_v, State.getElem_setV_self]
  refine ⟨fun px py => ⟨fun hhit => ?_, fun hmiss => ?_⟩, ?_⟩
  · rw [hset, decide_eq_true ((mem_hitPixels_iff ..).2 hhit), Bool.xor_true]
  · rw [hset, decide_eq_false (mt (mem_hitPixels_iff ..).1 hmiss), Bool.xor_false]
  · rw [hVF, flagByte_eq_one_iff, drawn, hcollision]
    simp only [Prod.exists, ← mem_hitPixels_iff]
    rfl

/-- A draw inside memory, or of no rows, completes (R161, R56). -/
theorem exec_drw_completes {x y : Reg} {n : Rows} {s : State} (h : n.val = 0 ∨ s.i.toNat + n.val ≤ 0x1000) :
    exec (.drw x y n) s = .next (after (.drw x y n) s) := by
  rcases exec_drw_cases x y n s with ⟨_, _, _⟩ | ⟨_, e⟩
  · omega
  · exact e

/-- Settles O45: every pixel and the flag by `exec_drw_next`, the rest by the frame of the draw. -/
theorem drawInvertsSpritePixels : Obligations.DrawInvertsSpritePixels := by
  intro x y n s hin
  have hexec := exec_drw_completes (x := x) (y := y) hin
  obtain ⟨hpixels, hflag⟩ := exec_drw_next hexec
  refine ⟨_, hexec, hpixels, hflag.2, fun hnone => ?_, fun r hr => ?_, State.advance_pc _,
    (after_keepsAllBut (.drw x y n) s).mono (by simp [writtenParts])⟩
  · exact (flagIsZeroOrOne (.drw x y n) s _ rfl hexec).resolve_right fun hone => hnone (hflag.1 hone)
  · exact onlyDestinationsChange (.drw x y n) s _ r hexec List.not_mem_nil fun _ => List.ne_of_not_mem_cons hr

/-- The sprite's place depends on `I`, the bytes of memory and the two coordinates only. -/
theorem spriteHits_congr {x y x' y' : Reg} {n : Rows} {s u : State} (hi : u.i = s.i) (hmem : SamePart .memory s u)
    (hx : (u.v[x']).toNat % 64 = (s.v[x]).toNat % 64) (hy : (u.v[y']).toNat % 32 = (s.v[y]).toNat % 32)
    (px : Fin 64) (py : Fin 32) : SpriteHits u x' y' n px py ↔ SpriteHits s x y n px py := by
  have hbyte : ∀ a, Memory.get u.mem a = Memory.get s.mem a := hmem
  simp only [SpriteHits, hi, hbyte, hx, hy]

/-- Settles O46: the second draw hits the same pixels, each of which the first has inverted. -/
theorem drawTwiceRestores : Obligations.DrawTwiceRestores := by
  intro x y x' y' n s t u hdraw hpixels hindex hmem hx hy
  have hkeeps := exec_keepsAllBut hdraw
  have hi : u.i = s.i := Eq.trans hindex (hkeeps .index (by simp [writtenParts]))
  have hmem' : SamePart .memory s u := (hkeeps .memory (by simp [writtenParts])).trans hmem
  have hin : n.val = 0 ∨ u.i.toNat + n.val ≤ 0x1000 := by
    rcases exec_drw_cases x y n s with ⟨_, _, e⟩ | ⟨hin, _⟩
    · rw [e] at hdraw; cases hdraw
    · exact hi ▸ hin
  have hdraw' := exec_drw_completes (x := x') (y := y') hin
  obtain ⟨hfirst, _⟩ := exec_drw_next hdraw
  obtain ⟨hsecond, hflag⟩ := exec_drw_next hdraw'
  simp only [spriteHits_congr hi hmem' hx hy] at hsecond hflag
  have hbetween : ∀ px py, SpriteHits s x y n px py → u.isSet px py = !s.isSet px py := fun px py hhit =>
    (hpixels px py).trans ((hfirst px py).1 hhit)
  refine ⟨_, hdraw', fun px py => ?_, hflag.trans ?_⟩
  · by_cases hhit : SpriteHits s x y n px py
    · rw [(hsecond px py).1 hhit, hbetween px py hhit, Bool.not_not]
    · rw [(hsecond px py).2 hhit, hpixels px py, (hfirst px py).2 hhit]
  · refine exists₂_congr fun px py => and_congr_right fun hhit => ?_
    rw [hbetween px py hhit, Bool.not_eq_true']

end Sys2Proof.Machine
end
